-- ==== Sys2Proof/Word.lean ====
section
/-! DEFINITION. The value types of the avrsim CORE: bytes, program words, the program counter, and the
index types that decoded operands use (spec/10_state.md R10, R16, R22). -/

namespace Sys2Proof

/-- A general register, a stack-pointer half or a byte of a data space: 8 bits (R10, R14, R19). -/
abbrev Byte := BitVec 8

/-- A 16-bit program word (R50); bit 0 is the least significant (R5). -/
abbrev Word := BitVec 16

/-- A program-counter value, `PC_BITS = 23` bits, counting bytes of program memory (R16). -/
abbrev Pc := BitVec 23

/-- The number of a general register, 0 to 31 (R10). -/
abbrev RegIdx := Fin 32

/-- An address of the 64-byte I/O space, 0 to 63 (R22). -/
abbrev IoAddr := Fin 64

/-- The unsigned displacement `q` of LDD and STD, 0 to 63 (R22). -/
abbrev Disp6 := Fin 64

end Sys2Proof
end

