-- ==== Sys2Proof/Config.lean ====
section
/-! DEFINITION. The implementation parameters of spec/00_scope.md R4 that are plain sizes. The hardware has no
free values (spec/93_implementation_defined.md: it is deterministic given the image, `DMEM_SIZE`, `SP_INIT`
and the start state), so nothing here is opaque. The program-counter unit `PCU` stands in Decode.lean. -/

namespace Sys2Proof.Config

/-- `ALIAS_SIZE`: bytes of the general-register alias space (R4, R19). -/
def aliasSize : Nat := 32

/-- `IO_SIZE`: bytes of the I/O space (R4, R19). -/
def ioSize : Nat := 64

/-- `EXTIO_SIZE`: bytes of the extended I/O space (R4, R19). -/
def extioSize : Nat := 160

/-- The largest `DMEM_SIZE` the spec admits, `1 <= DMEM_SIZE <= 65536` (R4). -/
def dmemSizeMax : Nat := 65536

/-- DESIGN CHOICE (log 3): the `DMEM_SIZE` of `State.reset`. The spec leaves it an argument, "≈1–2 KB,
configurable"; 2048 is the 2 KB of the spec's own programs. -/
def dmemSizeReset : Nat := 2048

/-- The bound `IMG_LEN <= 2^22` on the program image (R4). -/
def imgLenMax : Nat := 2 ^ 22

end Sys2Proof.Config
end

