-- ==== Sys2Proof/Syntax.lean ====
section
/-! DEFINITION. The instruction value (spec/10_state.md R22), the opcode kinds, the pattern row and the decode
descriptor (R23, R53), the outcomes of a decode and of a load (spec/00_scope.md R8), and the rendered form of
an instruction (spec/30_encoding.md R61). Types only. -/

namespace Sys2Proof

/-- The pointer register of LDD and STD, the field `ptr` of R22. -/
inductive Ptr where
  | Y
  | Z
  deriving DecidableEq, Repr

/-- The closed set of sixteen opcode kinds (R2, R22). -/
inductive Kind where
  | ret | cli | push | pop | jmp | call | add | adc | eor | ldi | inp | out | rjmp | rcall | ldd | std
  deriving DecidableEq, Repr

/-- An instruction value: a kind with its decoded operand fields (R22), the fields named as there.
`target` and `disp` are in program-counter units (R66). LDD and STD have one constructor each, and the
two table rows of each are its two values of `ptr` (log 21). -/
inductive Instr where
  /-- RET, R124 -/
  | ret
  /-- CLI, R140 -/
  | cli
  /-- PUSH Rr, R130 -/
  | push (r : RegIdx)
  /-- POP Rd, R131 -/
  | pop (d : RegIdx)
  /-- JMP k, R120 -/
  | jmp (target : Pc)
  /-- CALL k, R121 -/
  | call (target : Pc)
  /-- ADD Rd, Rr, R101 -/
  | add (d r : RegIdx)
  /-- ADC Rd, Rr, R102 -/
  | adc (d r : RegIdx)
  /-- EOR Rd, Rr, R100 -/
  | eor (d r : RegIdx)
  /-- LDI Rd, K, R110 -/
  | ldi (d : RegIdx) (k : Byte)
  /-- IN Rd, A, R111 -/
  | inp (d : RegIdx) (a : IoAddr)
  /-- OUT A, Rr, R112 -/
  | out (a : IoAddr) (r : RegIdx)
  /-- RJMP k, R122 -/
  | rjmp (disp : Int)
  /-- RCALL k, R123 -/
  | rcall (disp : Int)
  /-- LDD Rd, ptr+q, R132 -/
  | ldd (d : RegIdx) (ptr : Ptr) (q : Disp6)
  /-- STD ptr+q, Rr, R133 -/
  | std (ptr : Ptr) (q : Disp6) (r : RegIdx)
  /-- The terminator row of the opcode table, word `0x0000`. R141: it "is not an instruction"; it is a
  constructor only because every row of the table is one here (log 1). It is never well-formed, no decode
  gives it as `Decoded`, and it never enters Program Memory. -/
  | terminator
  deriving DecidableEq, Repr

/-- The width in program words, a function of the kind: 2 for JMP and CALL, 1 for all others (R22, R50). -/
def Instr.width : Instr → Nat
  | .jmp _ | .call _ => 2
  | .ret | .cli | .push _ | .pop _ | .add _ _ | .adc _ _ | .eor _ _ | .ldi _ _ | .inp _ _ | .out _ _
  | .rjmp _ | .rcall _ | .ldd _ _ _ | .std _ _ _ | .terminator => 1

/-- The kinds with execution semantics: JMP, CALL, EOR, OUT, LDI (R2, R86). -/
def Instr.executes : Instr → Bool
  | .jmp _ | .call _ | .eor _ _ | .out _ _ | .ldi _ _ => true
  | .ret | .cli | .push _ | .pop _ | .add _ _ | .adc _ _ | .inp _ _
  | .rjmp _ | .rcall _ | .ldd _ _ _ | .std _ _ _ | .terminator => false

/-- A pattern test of the Opcode Matcher: "(a) the instruction kind it identifies, (b) whether the
instruction occupies one or two words" beside its mask and match values (R53). -/
structure Pattern where
  kind  : Kind
  mask  : Word
  value : Word
  words : Nat
  deriving DecidableEq, Repr

/-- The decode descriptor: the matched kind, its width and the raw words consumed (R23). The word at
position 1 is present only for a two-word kind. -/
structure Descriptor where
  kind  : Kind
  width : Nat
  words : List Word
  deriving DecidableEq, Repr

/-- The operand fields the range check of R60 names. -/
inductive CheckedField where
  | register
  | q
  deriving DecidableEq, Repr

/-- A decode failure and what it records (R152, R153, R157 codes 1 and 2). -/
inductive DecodeFailure where
  /-- `DecodeFailure.Unmatched(w)`, R152 -/
  | unmatched (w : Word)
  /-- `DecodeFailure.FieldRange(w, field, value)`, R153 -/
  | fieldRange (w : Word) (field : CheckedField) (value : Nat)
  deriving DecidableEq, Repr

/-- The three outcomes of one decode (R8). -/
inductive DecodeOutcome where
  | decoded (i : Instr) (width : Nat)
  | endOfStream
  | failure (f : DecodeFailure)
  deriving DecidableEq, Repr

/-- The two outcomes of a load (R8, R83): the decoded instructions with the flash index table of their word
offsets (R24), or the decode failure. -/
inductive LoadOutcome where
  | loaded (instrs : List Instr) (offsets : List Nat)
  | loadFault (f : DecodeFailure)
  deriving DecidableEq, Repr

/-- One operand as render reports it: the decoded field, unchanged (R61). -/
inductive RenderedOperand where
  | reg (r : RegIdx)
  | imm (k : Byte)
  | ioAddr (a : IoAddr)
  | target (t : Pc)
  | rel (disp : Int)
  | indexed (ptr : Ptr) (q : Disp6)
  deriving DecidableEq, Repr

/-- What render produces: the mnemonic and the operands in the order of R61's table. -/
structure Rendered where
  mnemonic : String
  operands : List RenderedOperand
  deriving DecidableEq, Repr

end Sys2Proof
end

