-- ==== Sys2Proof/WellFormed.lean ====
section
/-! DEFINITION. Which terms of `Instr` are instruction values of spec/10_state.md R22: the range checks the field
types do not already make. -/

namespace Sys2Proof

/-- A JMP or CALL target is even (R22: "program-counter units, even, 0..2^23 - 2"). -/
def targetOk (t : Pc) : Bool := t.toNat % 2 == 0

/-- A relative displacement is even and in -4096..+4094 (R22). -/
def dispOk (x : Int) : Bool := x % 2 == 0 && decide (-4096 ≤ x) && decide (x ≤ 4094)

/-- The well-formed instruction values (R22). The terminator row "has no kind, no instruction value" (R141). -/
def Instr.wellFormed : Instr → Bool
  | .ret => true
  | .cli => true
  | .push _ => true
  | .pop _ => true
  | .jmp t => targetOk t
  | .call t => targetOk t
  | .add _ _ => true
  | .adc _ _ => true
  | .eor _ _ => true
  | .ldi d _ => decide (16 ≤ d.val)
  | .inp _ _ => true
  | .out _ _ => true
  | .rjmp x => dispOk x
  | .rcall x => dispOk x
  | .ldd _ _ _ => true
  | .std _ _ _ => true
  | .terminator => false

end Sys2Proof
end

