-- ==== Sys2Proof/Decode.lean ====
section
/-! DEFINITION. The decode of program words (spec/30_encoding.md R50 to R66, spec/40_pipeline.md R80 to R82): the
pattern list, the Opcode Matcher, the Field Decoder with its range check, one decode, and after it the encoder
(R63) and the reading of an opcode-table word. -/

namespace Sys2Proof

/-- `PCU`: program-counter units per program word, 2: the program counter counts bytes (R4, R16; log 7). -/
def pcu : Nat := 2

/-- The pattern list of R54, in test order. The fixed bits are the spec's, from general knowledge (log 11). -/
def patterns : List Pattern := [
  ⟨.ret,   0xFFFF, 0x9508, 1⟩,
  ⟨.cli,   0xFFFF, 0x94F8, 1⟩,
  ⟨.push,  0xFE0F, 0x920F, 1⟩,
  ⟨.pop,   0xFE0F, 0x900F, 1⟩,
  ⟨.jmp,   0xFE0E, 0x940C, 2⟩,
  ⟨.call,  0xFE0E, 0x940E, 2⟩,
  ⟨.add,   0xFC00, 0x0C00, 1⟩,
  ⟨.adc,   0xFC00, 0x1C00, 1⟩,
  ⟨.eor,   0xFC00, 0x2400, 1⟩,
  ⟨.ldi,   0xF000, 0xE000, 1⟩,
  ⟨.inp,   0xF800, 0xB000, 1⟩,
  ⟨.out,   0xF800, 0xB800, 1⟩,
  ⟨.rjmp,  0xF000, 0xC000, 1⟩,
  ⟨.rcall, 0xF000, 0xD000, 1⟩,
  ⟨.ldd,   0xD208, 0x8000, 1⟩,
  ⟨.ldd,   0xD208, 0x8008, 1⟩,
  ⟨.std,   0xD208, 0x8200, 1⟩,
  ⟨.std,   0xD208, 0x8208, 1⟩]

/-- Word `w` matches a pattern when `(w & mask) = match` (R53). -/
def Pattern.hits (p : Pattern) (w : Word) : Bool := w &&& p.mask == p.value

/-- The ordered tests of R53: the first pattern that matches wins. -/
def matchWord (w : Word) : Option Pattern := patterns.find? (fun p => p.hits w)

/-! The operand assembly of R52. -/

/-- `w[8:4]`: the register field of formats RR, IO, DISP and REG1. -/
def fieldReg (w : Word) : BitVec 5 := w.extractLsb 8 4

/-- `w[9] ++ w[3:0]`: the second register of format RR. -/
def fieldRr (w : Word) : BitVec 5 := w.extractLsb 9 9 ++ w.extractLsb 3 0

/-- `16 + w[7:4]`: the register of format IMM. -/
def fieldUpperReg (w : Word) : BitVec 5 := 16 + (w.extractLsb 7 4).setWidth 5

/-- `w[11:8] ++ w[3:0]`: the immediate of format IMM. -/
def fieldImm (w : Word) : Byte := w.extractLsb 11 8 ++ w.extractLsb 3 0

/-- `w[10:9] ++ w[3:0]`: the address of format IO. -/
def fieldIo (w : Word) : BitVec 6 := w.extractLsb 10 9 ++ w.extractLsb 3 0

/-- `w[8:4] ++ w[0] ++ w1[15:0]`: the 22-bit word address of format ABS (order of the upper bits: log 20). -/
def fieldAbs (w w1 : Word) : BitVec 22 := w.extractLsb 8 4 ++ w.extractLsb 0 0 ++ w1

/-- `w[11:0]`: the field of format REL. -/
def fieldRel (w : Word) : BitVec 12 := w.extractLsb 11 0

/-- `w[13] ++ w[11:10] ++ w[2:0]`: the displacement of format DISP. -/
def fieldQ (w : Word) : BitVec 6 := w.extractLsb 13 13 ++ w.extractLsb 11 10 ++ w.extractLsb 2 0

/-- `ptr = Y if w[3] = 1, Z if w[3] = 0`. -/
def fieldPtr (w : Word) : Ptr := if w.getLsbD 3 then .Y else .Z

/-- `target = PCU * k22`: the scaling of R52 and nothing else (log 20). -/
def targetOf (k22 : BitVec 22) : Pc := BitVec.ofNat 23 (pcu * k22.toNat)

/-- `disp = PCU * sext_12(k12)`: arithmetic widening, then the doubling (R52). -/
def dispOf (k12 : BitVec 12) : Int := (pcu : Int) * k12.toInt

/-- The range check of R60 that an LDD or STD value is constructed through, in the order register, `q`
(log 15). `build` is the constructor given the checked fields. -/
def checkedDisp (w : Word) (reg q : Nat) (build : RegIdx → Disp6 → Instr) : DecodeOutcome :=
  if hr : reg < 32 then
    if hq : q < 64 then .decoded (build ⟨reg, hr⟩ ⟨q, hq⟩) 1
    else .failure (.fieldRange w .q q)
  else .failure (.fieldRange w .register reg)

/-- The Field Decoder's `Extract(descriptor)`: one extraction routine per kind, a pure function of the raw
words (R82). -/
def extract (ds : Descriptor) : DecodeOutcome :=
  let w := ds.words.getD 0 0
  let w1 := ds.words.getD 1 0
  match ds.kind with
  | .ret => .decoded .ret ds.width
  | .cli => .decoded .cli ds.width
  | .push => .decoded (.push (fieldReg w).toFin) ds.width
  | .pop => .decoded (.pop (fieldReg w).toFin) ds.width
  | .jmp => .decoded (.jmp (targetOf (fieldAbs w w1))) ds.width
  | .call => .decoded (.call (targetOf (fieldAbs w w1))) ds.width
  | .add => .decoded (.add (fieldReg w).toFin (fieldRr w).toFin) ds.width
  | .adc => .decoded (.adc (fieldReg w).toFin (fieldRr w).toFin) ds.width
  | .eor => .decoded (.eor (fieldReg w).toFin (fieldRr w).toFin) ds.width
  | .ldi => .decoded (.ldi (fieldUpperReg w).toFin (fieldImm w)) ds.width
  | .inp => .decoded (.inp (fieldReg w).toFin (fieldIo w).toFin) ds.width
  | .out => .decoded (.out (fieldIo w).toFin (fieldReg w).toFin) ds.width
  | .rjmp => .decoded (.rjmp (dispOf (fieldRel w))) ds.width
  | .rcall => .decoded (.rcall (dispOf (fieldRel w))) ds.width
  | .ldd => checkedDisp w (fieldReg w).toNat (fieldQ w).toNat (fun r q => .ldd r (fieldPtr w) q)
  | .std => checkedDisp w (fieldReg w).toNat (fieldQ w).toNat (fun r q => .std (fieldPtr w) q r)

/-- `NextWord()` at offset `off` of the image: the word, or the end-of-stream signal (R80). -/
def nextWord (img : List Word) (off : Nat) : Option Word := img[off]?

/-- `DecodeOne(IMG, off)`, the algorithm of R81. -/
def decodeOne (img : List Word) (off : Nat) : DecodeOutcome :=
  match nextWord img off with
  | none => .endOfStream
  | some w0 =>
    match matchWord w0 with
    | some p =>
      if p.words = 2 then
        match nextWord img (off + 1) with
        | none => .endOfStream
        | some w1 => extract ⟨p.kind, 2, [w0, w1]⟩
      else extract ⟨p.kind, 1, [w0]⟩
    | none => if w0 = 0 then .endOfStream else .failure (.unmatched w0)

/-! The encoder, from the inverse layouts of R63 and the match values of R54. -/

/-- `enc_RR(OP, d, r)`. -/
def encRR (op : Word) (d r : RegIdx) : Word :=
  op ||| (BitVec.ofNat 16 (r.val / 16) <<< 9) ||| (BitVec.ofNat 16 d.val <<< 4) ||| BitVec.ofNat 16 (r.val % 16)

/-- `enc_IMM(d, K)`, for `16 <= d <= 31`. -/
def encImm (d : RegIdx) (k : Byte) : Word :=
  0xE000 ||| ((k.extractLsb 7 4).setWidth 16 <<< 8) ||| (BitVec.ofNat 16 (d.val - 16) <<< 4)
    ||| (k.extractLsb 3 0).setWidth 16

/-- `enc_IO(OP, reg, A)`. -/
def encIo (op : Word) (reg : RegIdx) (a : IoAddr) : Word :=
  op ||| (BitVec.ofNat 16 (a.val / 16) <<< 9) ||| (BitVec.ofNat 16 reg.val <<< 4) ||| BitVec.ofNat 16 (a.val % 16)

/-- `enc_ABS(OP, k22)`, with `k22 = target / PCU`. -/
def encAbs (op : Word) (target : Pc) : List Word :=
  let k22 := BitVec.ofNat 22 (target.toNat / pcu)
  [op ||| ((k22.extractLsb 21 17).setWidth 16 <<< 4) ||| (k22.extractLsb 16 16).setWidth 16, k22.setWidth 16]

/-- `enc_REL(OP, s)`, with `s = disp / PCU`. -/
def encRel (op : Word) (disp : Int) : Word := op ||| (BitVec.ofInt 12 (disp / (pcu : Int))).setWidth 16

/-- `enc_DISP(OP, reg, q)`; `OP` already holds bit 9 and bit 3. -/
def encDisp (op : Word) (reg : RegIdx) (q : Disp6) : Word :=
  op ||| (BitVec.ofNat 16 (q.val / 32) <<< 13) ||| (BitVec.ofNat 16 (q.val / 8 % 4) <<< 10)
    ||| (BitVec.ofNat 16 reg.val <<< 4) ||| BitVec.ofNat 16 (q.val % 8)

/-- `enc_REG1(OP, reg)`. -/
def encReg1 (op : Word) (reg : RegIdx) : Word := op ||| (BitVec.ofNat 16 reg.val <<< 4)

/-- The words of a well-formed instruction (R63). -/
def encode : Instr → List Word
  | .ret => [0x9508]
  | .cli => [0x94F8]
  | .push r => [encReg1 0x920F r]
  | .pop d => [encReg1 0x900F d]
  | .jmp t => encAbs 0x940C t
  | .call t => encAbs 0x940E t
  | .add d r => [encRR 0x0C00 d r]
  | .adc d r => [encRR 0x1C00 d r]
  | .eor d r => [encRR 0x2400 d r]
  | .ldi d k => [encImm d k]
  | .inp d a => [encIo 0xB000 d a]
  | .out a r => [encIo 0xB800 r a]
  | .rjmp x => [encRel 0xC000 x]
  | .rcall x => [encRel 0xD000 x]
  | .ldd d .Z q => [encDisp 0x8000 d q]
  | .ldd d .Y q => [encDisp 0x8008 d q]
  | .std .Z q r => [encDisp 0x8200 r q]
  | .std .Y q r => [encDisp 0x8208 r q]
  | .terminator => [0x0000]

/-- The two program words of an opcode-table word of `nbits` bits: bit 0 is the least significant bit of the
first word, the second word's bits count on from bit 16, and bits from `nbits` up are zero. -/
def tableWords (nbits w : Nat) : List Word :=
  [BitVec.ofNat 16 (w % 2 ^ nbits), BitVec.ofNat 16 (w % 2 ^ nbits / 2 ^ 16)]

/-- What the decoder reads from an opcode-table word. Two words are at hand, so the only word with the
outcome `EndOfStream` is the terminator `0x0000`, and its row of the table is `Instr.terminator` (log 1). -/
def decodeTableWord (nbits w : Nat) : Option Instr :=
  match decodeOne (tableWords nbits w) 0 with
  | .decoded i _ => some i
  | .endOfStream => some .terminator
  | .failure _ => none

end Sys2Proof
end

