-- ==== Sys2Proof/Machine/State.lean ====
section
/-! DEFINITION. The state of the machine (spec/10_state.md), the reasons a step or a bring-up can stop
(spec/60_exceptions.md R150 to R157), and the state right after reset (R27). -/

namespace Sys2Proof.Machine

/-- The eight condition flags, "8 independent boolean condition flags", in the order the spec lists them (R12). -/
structure Flags where
  c : Bool
  z : Bool
  n : Bool
  v : Bool
  s : Bool
  h : Bool
  t : Bool
  i : Bool
  deriving DecidableEq, Repr

/-- The four byte-addressed data spaces (R19, R30); `regAlias` is the general-register alias space. -/
inductive Space where
  | regAlias
  | io
  | extio
  | data
  deriving DecidableEq, Repr

/-- One data space: its bytes that differ from what an unlisted address reads as, by strictly rising address. -/
abbrev Memory := List Host.Cell

/-- Program Memory: the decoded instruction at each program-counter value that has an entry, by strictly
rising key (R21). The width that R21 stores beside it is a function of the kind (R22). -/
abbrev ProgramMemory := List (Nat × Instr)

/-- Processor State (R10 to R21), with the two arguments of the spec's step relation that `step` has no other
place for: `dmemSize` (R4) and `pm` (R21). -/
structure State where
  /-- R0 to R31 (R10) -/
  regs : Vector Byte 32
  /-- the eight flags (R12) -/
  flags : Flags
  /-- SPH, bits 15 to 8 of the stack pointer (R14) -/
  sph : Byte
  /-- SPL, bits 7 to 0 of the stack pointer (R14) -/
  spl : Byte
  /-- the program counter (R16) -/
  pc : Pc
  /-- ALIAS[0..31] (R19) -/
  aliasSpace : Memory
  /-- IO[0..63] (R19) -/
  io : Memory
  /-- EXTIO[0..159] (R19) -/
  extio : Memory
  /-- DATA[0..dmemSize-1] (R19) -/
  data : Memory
  /-- DMEM_SIZE, the length of DATA (R4; log 3) -/
  dmemSize : Nat
  /-- Program Memory (R21; log 2) -/
  pm : ProgramMemory
  deriving DecidableEq, Repr

/-- The fatal conditions (R157 codes 1 to 5). Every one ends the run and has no successor state (R160). -/
inductive Fault where
  /-- Codes 1 and 2, R152 and R153. Raised by the load inside `bringUp`, never by a step. Safe: the spec's own
  stop. -/
  | decodeFailure (f : DecodeFailure)
  /-- Code 3, `Fatal.UnmappedPC(pc)`, R154. Raised by `step` when Program Memory has no entry at `pc`, and by
  the terminator row's meaning. Safe: the spec's own stop. -/
  | unmappedPC (pc : Pc)
  /-- Code 4, `Fatal.NotImplemented(instr)`, R155, with what render emitted before the run ends (R87; log 13).
  Raised by the meanings of the eleven decode-only kinds. Safe: the spec's own stop. -/
  | notImplemented (instr : Instr) (emitted : Rendered)
  /-- Code 5, `Fatal.DataAddress(addr)`, R156. Raised by a byte access outside a data space, in CALL only.
  Safe: the spec's own stop (D6 adds the fault; log 10). -/
  | dataAddress (addr : Nat)
  deriving DecidableEq, Repr

/-- What the model gives no meaning to. -/
inductive Refusal where
  /-- An instruction without a meaning, by the table's mnemonic. Raised by no arm of `exec`. Safe. -/
  | notModelled (mnemonic : String)
  /-- Raised by `bringUp` for a `DMEM_SIZE` outside 1..65536 (R4; log 16). Safe. -/
  | dmemSizeOutOfRange (size : Nat)
  /-- Raised by `bringUp` for an image of more than 2^22 words (R4, D25; log 16). Safe. -/
  | imageTooLong (length : Nat)
  deriving DecidableEq, Repr

/-- The state the host's construction gives (R27), for a data memory of `dmemSize` bytes and no program yet:
`pc = 0`, and every other piece at the zero of decision D7 (log 4, 5, 6). -/
def State.constructed (dmemSize : Nat) : State where
  regs := Vector.replicate 32 0
  flags := ⟨false, false, false, false, false, false, false, false⟩
  sph := 0
  spl := 0
  pc := 0
  aliasSpace := []
  io := []
  extio := []
  data := []
  dmemSize := dmemSize
  pm := []

/-- The machine right after reset (R27): the constructed state. No program is placed, so Program Memory is the
load of the empty image (log 2), and `DMEM_SIZE` is the one of Config (log 3). -/
def State.reset : State := State.constructed Config.dmemSizeReset

end Sys2Proof.Machine
end

