-- ==== Sys2Proof/Machine/Ops.lean ====
section
/-! DEFINITION. The named operations over registers, memory and Program Memory (spec/00_scope.md R7,
spec/20_memory.md R42, spec/10_state.md R14 to R17), and raising a fatal condition (spec/60_exceptions.md R160). -/

namespace Sys2Proof.Machine

/-! One data space as a list of cells. -/

/-- What an address that no cell lists reads as: the arrays are 0x00 after construction (R27, D7; log 6). -/
def unlistedByte : Byte := 0

/-- The byte at an address. -/
def Memory.read : Memory → Nat → Byte
  | [], _ => unlistedByte
  | (k, b) :: rest, a => if k = a then b else Memory.read rest a

/-- The cell of a byte in canonical form: none where the byte is what an unlisted address reads as. -/
def Memory.cell (a : Nat) (v : Byte) : Memory := if v = unlistedByte then [] else [(a, v)]

/-- Writing a byte, keeping the canonical form. -/
def Memory.write : Memory → Nat → Byte → Memory
  | [], a, v => Memory.cell a v
  | (k, b) :: rest, a, v =>
    if a < k then Memory.cell a v ++ (k, b) :: rest
    else if a = k then Memory.cell a v ++ rest
    else (k, b) :: Memory.write rest a v

/-- Addresses strictly rise from `lo` on and no cell holds the unlisted byte. -/
def Memory.risingFrom : Nat → Memory → Bool
  | _, [] => true
  | lo, (k, b) :: rest => decide (lo ≤ k) && decide (b ≠ unlistedByte) && Memory.risingFrom (k + 1) rest

/-- The canonical form: strictly rising addresses, no cell equal to what an unlisted address reads as. -/
def Memory.wf (m : Memory) : Bool := Memory.risingFrom 0 m

/-- Every listed address is below the size of the space. -/
def Memory.below (m : Memory) (size : Nat) : Bool := m.all (fun c => decide (c.1 < size))

/-! Program Memory. -/

/-- `PM[a]`: the instruction stored at program-counter value `a` with its width in words, or none (R7, R21). -/
def ProgramMemory.lookup : ProgramMemory → Nat → Option (Instr × Nat)
  | [], _ => none
  | (k, i) :: rest, a => if k = a then some (i, i.width) else ProgramMemory.lookup rest a

/-- Put an entry, in place of any that stands at its key. -/
def ProgramMemory.insert : ProgramMemory → Nat → Instr → ProgramMemory
  | [], a, i => [(a, i)]
  | (k, j) :: rest, a, i =>
    if a < k then (a, i) :: (k, j) :: rest
    else if a = k then (a, i) :: rest
    else (k, j) :: ProgramMemory.insert rest a i

/-- Take out the entry at a key. -/
def ProgramMemory.erase (p : ProgramMemory) (a : Nat) : ProgramMemory := p.filter (fun e => e.1 != a)

/-- Keys strictly rise from `lo` on, are even and fit the program counter, and hold well-formed instruction
values (R18, R21, R22). -/
def ProgramMemory.risingFrom : Nat → ProgramMemory → Bool
  | _, [] => true
  | lo, (k, i) :: rest =>
    decide (lo ≤ k) && decide (k % 2 = 0) && decide (k < 2 ^ 23) && i.wellFormed
      && ProgramMemory.risingFrom (k + 1) rest

/-- The form of every Program Memory the load builds (R21, R84). -/
def ProgramMemory.wf (p : ProgramMemory) : Bool := ProgramMemory.risingFrom 0 p

/-- The lookup the engine makes at `pc` (R85). -/
def fetch (s : State) : Option (Instr × Nat) := s.pm.lookup s.pc.toNat

/-! Registers (R10, R14 to R17). -/

/-- `R[i]`. -/
def State.reg (s : State) (i : RegIdx) : Byte := s.regs[i]

/-- `R[i] <- v`. -/
def State.setReg (s : State) (i : RegIdx) (v : Byte) : State := { s with regs := s.regs.set i v }

/-- `SP`, the 16-bit value `SPH ++ SPL`. -/
def State.sp (s : State) : BitVec 16 := s.sph ++ s.spl

/-- `SP <- v`: both halves together. -/
def State.setSp (s : State) (v : BitVec 16) : State :=
  { s with sph := v.extractLsb 15 8, spl := v.extractLsb 7 0 }

/-- `SP <- (SP - 1) mod 2^16`, one 16-bit quantity (R15; log 9). -/
def State.decSp (s : State) : State := s.setSp (s.sp - 1)

/-- `SP <- (SP + 1) mod 2^16` (R15). No executed instruction uses it: POP and RET do not execute. -/
def State.incSp (s : State) : State := s.setSp (s.sp + 1)

/-- `pc <- target`. -/
def State.setPc (s : State) (target : Pc) : State := { s with pc := target }

/-- The program-counter value `width` words after this instruction: `(pc + PCU * width) mod 2^PC_BITS` (R17). -/
def State.pcAfter (s : State) (width : Nat) : Pc := s.pc + BitVec.ofNat 23 (pcu * width)

/-- "counter advances by one instruction width" (R17). -/
def State.advance (s : State) (width : Nat) : State := s.setPc (s.pcAfter width)

/-! The data spaces of a state, and the memory primitives of R42. -/

/-- The bytes of a space. -/
def State.space (s : State) : Space → Memory
  | .regAlias => s.aliasSpace
  | .io => s.io
  | .extio => s.extio
  | .data => s.data

/-- `SIZE(S)`: 32, 64, 160 or `DMEM_SIZE` (R30, R42). -/
def State.spaceSize (s : State) : Space → Nat
  | .regAlias => Config.aliasSize
  | .io => Config.ioSize
  | .extio => Config.extioSize
  | .data => s.dmemSize

/-- A state with the bytes of one space replaced; the others are untouched (R20). -/
def State.setSpace (s : State) (sp : Space) (m : Memory) : State :=
  match sp with
  | .regAlias => { s with aliasSpace := m }
  | .io => { s with io := m }
  | .extio => { s with extio := m }
  | .data => { s with data := m }

/-- The byte at an index of a space, with no bounds check: what the host sees there. -/
def State.byteAt (s : State) (sp : Space) (a : Nat) : Byte := (s.space sp).read a

/-- `MemRead(S, addr, 1)` (R42). No executed instruction uses it (R34). -/
def memRead (sp : Space) (addr : Nat) (s : State) : Except Fault Byte :=
  if s.spaceSize sp ≤ addr then .error (.dataAddress addr) else .ok (s.byteAt sp addr)

/-- `MemWrite(S, addr, 1, v)` (R42). -/
def memWrite (sp : Space) (addr : Nat) (v : Byte) (s : State) : Except Fault State :=
  if s.spaceSize sp ≤ addr then .error (.dataAddress addr)
  else .ok (s.setSpace sp ((s.space sp).write addr v))

/-! Fatal conditions. -/

/-- Raising a fatal condition (R160): it "saves nothing, changes no mode, masks nothing, uses no stack, and
transfers control nowhere", and the step has no successor state. There is no return from it (R162). -/
def raiseFatal (f : Fault) : Host.Outcome State Fault Refusal := .fault f

/-- The outcome of an instruction whose last effect may raise. -/
def finish (r : Except Fault State) : Host.Outcome State Fault Refusal :=
  match r with
  | .ok s => .next s
  | .error f => raiseFatal f

end Sys2Proof.Machine
end

