-- ==== Sys2Proof/Machine/Render.lean ====
section
/-! DEFINITION. Render (spec/30_encoding.md R61): the mnemonic and the operand values of an instruction, which are
normative, and their text after R61's table, which the spec calls informative (log 14). -/

namespace Sys2Proof.Machine

/-- The render operation (R61, R90): pure, no side effects, the operand values those of the decoded fields. The
terminator row has no render (R141), and the empty one given here is emitted by nothing. -/
def render : Instr → Rendered
  | .ret => ⟨"RET", []⟩
  | .cli => ⟨"CLI", []⟩
  | .push r => ⟨"PUSH", [.reg r]⟩
  | .pop d => ⟨"POP", [.reg d]⟩
  | .jmp t => ⟨"JMP", [.target t]⟩
  | .call t => ⟨"CALL", [.target t]⟩
  | .add d r => ⟨"ADD", [.reg d, .reg r]⟩
  | .adc d r => ⟨"ADC", [.reg d, .reg r]⟩
  | .eor d r => ⟨"EOR", [.reg d, .reg r]⟩
  | .ldi d k => ⟨"LDI", [.reg d, .imm k]⟩
  | .inp d a => ⟨"IN", [.reg d, .ioAddr a]⟩
  | .out a r => ⟨"OUT", [.ioAddr a, .reg r]⟩
  | .rjmp x => ⟨"RJMP", [.rel x]⟩
  | .rcall x => ⟨"RCALL", [.rel x]⟩
  | .ldd d p q => ⟨"LDD", [.reg d, .indexed p q]⟩
  | .std p q r => ⟨"STD", [.indexed p q, .reg r]⟩
  | .terminator => ⟨"", []⟩

/-- One hexadecimal digit, upper case. -/
def hexDigit (n : Nat) : Char := (if n < 10 then Char.ofNat (48 + n) else Char.ofNat (55 + n))

/-- The `digits` lowest hexadecimal digits of a number, most significant first. -/
def hexDigits : Nat → Nat → List Char
  | 0, _ => []
  | digits + 1, n => hexDigits digits (n / 16) ++ [hexDigit (n % 16)]

/-- The decimal digits of a number below ten thousand, without leading zeros. -/
def decDigits (n : Nat) : List Char :=
  let digit (k : Nat) : Char := Char.ofNat (48 + k % 10)
  (if n < 1000 then [] else [digit (n / 1000)]) ++ (if n < 100 then [] else [digit (n / 100)])
    ++ (if n < 10 then [] else [digit (n / 10)]) ++ [digit n]

/-- The text of one operand: registers in decimal, addresses and immediates in hexadecimal (R61). DESIGN CHOICE
(log 14): R61 names no sign for a displacement of 0, and it is written `.+0`. -/
def operandText : RenderedOperand → List Char
  | .reg r => 'R' :: decDigits r.val
  | .imm k => '0' :: 'x' :: hexDigits 2 k.toNat
  | .ioAddr a => '0' :: 'x' :: hexDigits 2 a.val
  | .target t => '0' :: 'x' :: hexDigits 6 t.toNat
  | .rel x => '.' :: (if x < 0 then '-' else '+') :: decDigits x.natAbs
  | .indexed p q => (match p with | .Y => 'Y' | .Z => 'Z') :: '+' :: decDigits q.val

/-- Operands with the separator of R61 between them. -/
def operandsText : List RenderedOperand → List Char
  | [] => []
  | [x] => operandText x
  | x :: rest => operandText x ++ ',' :: ' ' :: operandsText rest

/-- The render text as characters: mnemonic, and the operands after one space. -/
def textChars (r : Rendered) : List Char :=
  match r.operands with
  | [] => r.mnemonic.toList
  | ops => r.mnemonic.toList ++ ' ' :: operandsText ops

/-- The render text (R61). -/
def renderText (i : Instr) : String := String.ofList (textChars (render i))

end Sys2Proof.Machine
end

