-- ==== Sys2Proof/Machine/DecodeOnly.lean ====
section
/-! DEFINITION. The default execute (spec/40_pipeline.md R87), shared by the eleven kinds that have no execution
semantics. -/

namespace Sys2Proof.Machine

/-- `ExecuteDefault(instr, state)`: emit the render, then raise `Fatal.NotImplemented(instr)`; the state is not
changed and `pc` is not advanced (R87, R155). The emission is the condition's second component (log 13). -/
def executeDefault (i : Instr) (_s : State) : Host.Outcome State Fault Refusal :=
  raiseFatal (.notImplemented i (render i))

end Sys2Proof.Machine
end

