-- ==== Sys2Proof/Machine/Operands.lean ====
section
/-! DEFINITION. The operand forms of the executed instructions beyond the plain register and the immediate: the I/O
direct form of OUT (spec/42_immediate_io.md R112) and the stack form of CALL (spec/43_control_transfer.md R121).
The operands themselves are final as decoded (spec/30_encoding.md R66). -/

namespace Sys2Proof.Machine

/-- The index of the I/O space that an I/O operand names: the address itself (R112). -/
def ioIndex (a : IoAddr) : Nat := a.val

/-- The address the next pushed byte is stored to: "the pointer always references the next free byte" (R121). -/
def pushAddress (s : State) : Nat := s.sp.toNat

/-- Store one byte at the current stack address, then decrement the pointer by one (R121; C4). -/
def pushByte (v : Byte) (s : State) : Except Fault State :=
  match memWrite .data (pushAddress s) v s with
  | .error f => .error f
  | .ok s' => .ok s'.decSp

/-- The push sequence for a 2-byte value: the low byte first, at the higher address, then the high byte one
address below (R31, R121; C3). -/
def pushWord (v : BitVec 16) (s : State) : Except Fault State :=
  match pushByte (v.extractLsb 7 0) s with
  | .error f => .error f
  | .ok s' => pushByte (v.extractLsb 15 8) s'

/-- The two bytes CALL saves: the low 16 bits of the program-counter value after the two-word CALL
(R121, D4; log 8). -/
def returnAddress (s : State) : BitVec 16 := (s.pcAfter 2).extractLsb 15 0

end Sys2Proof.Machine
end

