-- ==== Sys2Proof/Machine/ControlTransfer.lean ====
section
/-! DEFINITION. Control transfer: JMP, CALL, RJMP, RCALL, RET (spec/43_control_transfer.md). -/

namespace Sys2Proof.Machine

/-- JMP k (R120): `pc <- target`. -/
def execJmp (target : Pc) (s : State) : Host.Outcome State Fault Refusal := .next (s.setPc target)

/-- CALL k (R121): push the return address, then `pc <- target`. When either write raises, the step has no
successor state, so no byte is written and SP and `pc` keep their values (R160). -/
def execCall (target : Pc) (s : State) : Host.Outcome State Fault Refusal :=
  finish ((pushWord (returnAddress s) s).map (fun s' => s'.setPc target))

/-- RJMP k (R122): the default execute. -/
def execRjmp (disp : Int) (s : State) : Host.Outcome State Fault Refusal := executeDefault (.rjmp disp) s

/-- RCALL k (R123): the default execute. -/
def execRcall (disp : Int) (s : State) : Host.Outcome State Fault Refusal := executeDefault (.rcall disp) s

/-- RET (R124): the default execute. -/
def execRet (s : State) : Host.Outcome State Fault Refusal := executeDefault .ret s

end Sys2Proof.Machine
end

