-- ==== Sys2Proof/Machine/ImmediateIo.lean ====
section
/-! DEFINITION. Immediate load and I/O transfer: LDI, IN, OUT (spec/42_immediate_io.md). -/

namespace Sys2Proof.Machine

/-- LDI Rd, K (R110): `R[d] <- K; pc <- pc + 2`. -/
def execLdi (d : RegIdx) (k : Byte) (s : State) : Host.Outcome State Fault Refusal :=
  .next ((s.setReg d k).advance 1)

/-- IN Rd, A (R111): the default execute. -/
def execIn (d : RegIdx) (a : IoAddr) (s : State) : Host.Outcome State Fault Refusal :=
  executeDefault (.inp d a) s

/-- OUT A, Rr (R112): `MemWrite(IO, A, 1, R[r]); pc <- pc + 2`. -/
def execOut (a : IoAddr) (r : RegIdx) (s : State) : Host.Outcome State Fault Refusal :=
  finish ((memWrite .io (ioIndex a) (s.reg r) s).map (fun s' => s'.advance 1))

end Sys2Proof.Machine
end

