-- ==== Sys2Proof/Machine/Flags.lean ====
section
/-! DEFINITION. The flags by name (spec/10_state.md R12), and the one flag rule of the hardware: "No instruction
writes any flag and no instruction reads any flag" (R13; packing: log 18). -/

namespace Sys2Proof.Machine

/-- The names of the eight flags (R12). -/
inductive FlagName where
  | c | z | n | v | s | h | t | i
  deriving DecidableEq, Repr

/-- `F.<name>` of a state. -/
def State.flag (s : State) : FlagName → Bool
  | .c => s.flags.c
  | .z => s.flags.z
  | .n => s.flags.n
  | .v => s.flags.v
  | .s => s.flags.s
  | .h => s.flags.h
  | .t => s.flags.t
  | .i => s.flags.i

/-- The flags after EOR with the given result: unchanged, "even where the architecture requires it" (R13). -/
def flagsAfterEor (before : Flags) (_result : Byte) : Flags := before

/-- A state with its flags replaced, as the host may construct one (R29). -/
def State.setFlags (s : State) (f : Flags) : State := { s with flags := f }

end Sys2Proof.Machine
end

