-- ==== Sys2Proof/Machine/RegisterPair.lean ====
section
/-! DEFINITION. Register-pair arithmetic and logic: EOR, ADD, ADC (spec/41_alu_register.md). -/

namespace Sys2Proof.Machine

/-- EOR Rd, Rr (R100): `v <- R[d] XOR R[r]; R[d] <- v; pc <- pc + 2`, both reads before the write. -/
def execEor (d r : RegIdx) (s : State) : Host.Outcome State Fault Refusal :=
  let v := s.reg d ^^^ s.reg r
  .next (((s.setReg d v).setFlags (flagsAfterEor s.flags v)).advance 1)

/-- ADD Rd, Rr (R101): the default execute. -/
def execAdd (d r : RegIdx) (s : State) : Host.Outcome State Fault Refusal := executeDefault (.add d r) s

/-- ADC Rd, Rr (R102): the default execute. -/
def execAdc (d r : RegIdx) (s : State) : Host.Outcome State Fault Refusal := executeDefault (.adc d r) s

end Sys2Proof.Machine
end

