-- ==== Sys2Proof/Machine/StackLoadStore.lean ====
section
/-! DEFINITION. Stack and displaced load and store: PUSH, POP, LDD, STD (spec/44_stack_loadstore.md), all four
decoded and rendered only. -/

namespace Sys2Proof.Machine

/-- PUSH Rr (R130): the default execute. -/
def execPush (r : RegIdx) (s : State) : Host.Outcome State Fault Refusal := executeDefault (.push r) s

/-- POP Rd (R131): the default execute. -/
def execPop (d : RegIdx) (s : State) : Host.Outcome State Fault Refusal := executeDefault (.pop d) s

/-- LDD Rd, ptr+q (R132): the default execute. -/
def execLdd (d : RegIdx) (ptr : Ptr) (q : Disp6) (s : State) : Host.Outcome State Fault Refusal :=
  executeDefault (.ldd d ptr q) s

/-- STD ptr+q, Rr (R133): the default execute. -/
def execStd (ptr : Ptr) (q : Disp6) (r : RegIdx) (s : State) : Host.Outcome State Fault Refusal :=
  executeDefault (.std ptr q r) s

end Sys2Proof.Machine
end

