-- ==== Sys2Proof/Machine/System.lean ====
section
/-! DEFINITION. CLI and the terminator row of the opcode table (spec/45_system.md). -/

namespace Sys2Proof.Machine

/-- CLI (R140): the default execute; `F.i` is not cleared. -/
def execCli (s : State) : Host.Outcome State Fault Refusal := executeDefault .cli s

/-- The terminator row (R141): it has no execute and no entry in Program Memory; "If `pc` reaches the address
where a terminator stood, the step raises `Fatal.UnmappedPC`" (log 1). -/
def execTerminator (s : State) : Host.Outcome State Fault Refusal := raiseFatal (.unmappedPC s.pc)

end Sys2Proof.Machine
end

