-- ==== Sys2Proof/Machine/Dispatch.lean ====
section
/-! DEFINITION. The dispatch: one arm per constructor of `Instr` (spec/40_pipeline.md R85, R90). -/

namespace Sys2Proof.Machine

def exec (i : Instr) (s : State) : Host.Outcome State Fault Refusal :=
  match i with
  | .ret => Sys2Proof.Machine.execRet s
  | .cli => Sys2Proof.Machine.execCli s
  | .push r => Sys2Proof.Machine.execPush r s
  | .pop d => Sys2Proof.Machine.execPop d s
  | .jmp target => Sys2Proof.Machine.execJmp target s
  | .call target => Sys2Proof.Machine.execCall target s
  | .add d r => Sys2Proof.Machine.execAdd d r s
  | .adc d r => Sys2Proof.Machine.execAdc d r s
  | .eor d r => Sys2Proof.Machine.execEor d r s
  | .ldi d k => Sys2Proof.Machine.execLdi d k s
  | .inp d a => Sys2Proof.Machine.execIn d a s
  | .out a r => Sys2Proof.Machine.execOut a r s
  | .rjmp disp => Sys2Proof.Machine.execRjmp disp s
  | .rcall disp => Sys2Proof.Machine.execRcall disp s
  | .ldd d ptr q => Sys2Proof.Machine.execLdd d ptr q s
  | .std ptr q r => Sys2Proof.Machine.execStd ptr q r s
  | .terminator => Sys2Proof.Machine.execTerminator s

end Sys2Proof.Machine
end

