-- ==== Sys2Proof/Machine/Step.lean ====
section
/-! DEFINITION. The step of the Execution Engine (spec/40_pipeline.md R85), and the placing of one opcode-table word
where the next step looks its instruction up. -/

namespace Sys2Proof.Machine

/-- `Step(PM, state)` (R85): look up the instruction at `pc`; a miss is fatal; otherwise invoke its execute. The
engine itself does not advance `pc`. -/
def step (s : State) : Host.Outcome State Fault Refusal :=
  match fetch s with
  | none => raiseFatal (.unmappedPC s.pc)
  | some (i, _) => exec i s

/-- The state with the instruction of an opcode-table word as Program Memory's entry at `pc`: what the load of
that word, standing there, gives (log 2). A word that is no instruction gives no entry there (R141; log 22). -/
def State.withFetchWord (s : State) (nbits w : Nat) : State :=
  match decodeTableWord nbits w with
  | none => { s with pm := s.pm.erase s.pc.toNat }
  | some .terminator => { s with pm := s.pm.erase s.pc.toNat }
  | some i => { s with pm := s.pm.insert s.pc.toNat i }

end Sys2Proof.Machine
end

