-- ==== Sys2Proof/Machine/Load.lean ====
section
/-! DEFINITION. The Batch Disassembly Driver and the bring-up: the load of an image (spec/40_pipeline.md R83), the
Program Memory it gives (R84), and the host's order of construction (spec/70_reset_and_hazards.md R180). -/

namespace Sys2Proof

/-- An instruction and its offset enter the two sequences together (R83; D17). -/
def LoadOutcome.cons (i : Instr) (off : Nat) : LoadOutcome → LoadOutcome
  | .loaded instrs offsets => .loaded (i :: instrs) (off :: offsets)
  | .loadFault f => .loadFault f

/-- The loop of R83 with at most `fuel` decodes to come. -/
def loadLoop : Nat → List Word → Nat → LoadOutcome
  | 0, _, _ => .loaded [] []
  | fuel + 1, img, off =>
    match decodeOne img off with
    | .decoded i width => (loadLoop fuel img (off + width)).cons i off
    | .endOfStream => .loaded [] []
    | .failure f => .loadFault f

/-- The loop of R83 from a word offset on. One decode a word left is enough, since each advances the offset by 1
or 2, and at the end of the image the outcome is `EndOfStream`. -/
def loadFrom (img : List Word) (off : Nat) : LoadOutcome := loadLoop (img.length - off) img off

/-- `Load(IMG)` (R83): "walks an entire word stream from offset 0". -/
def load (img : List Word) : LoadOutcome := loadFrom img 0

namespace Machine

/-- `PM = PCU * offsets[i] -> (instrs[i], width(instrs[i]))` (R84, D3). -/
def ProgramMemory.ofLoad (instrs : List Instr) (offsets : List Nat) : ProgramMemory :=
  (offsets.map (fun off => pcu * off)).zip instrs

/-- The bring-up of R180: the load to completion, Program Memory from it, the constructed state, and
`SP <- SP_INIT`. On a load fault there is no run (R170). Arguments outside the ranges of R4 are refused by
precondition (D25; log 16). -/
def bringUp (img : List Word) (dmemSize : Nat) (spInit : BitVec 16) : Host.Outcome State Fault Refusal :=
  if dmemSize = 0 ∨ Config.dmemSizeMax < dmemSize then .refused (.dmemSizeOutOfRange dmemSize)
  else if Config.imgLenMax < img.length then .refused (.imageTooLong img.length)
  else
    match load img with
    | .loadFault f => raiseFatal (.decodeFailure f)
    | .loaded instrs offsets =>
      .next ({ State.constructed dmemSize with pm := ProgramMemory.ofLoad instrs offsets }.setSp spInit)

end Machine

end Sys2Proof
end

