-- ==== Sys2Proof/Machine/Report.lean ====
section
/-! DEFINITION. What the host sees of a run (spec/40_pipeline.md R88, R91; spec/70_reset_and_hazards.md R189), and
the reference codes of the conditions (spec/60_exceptions.md R157). -/

namespace Sys2Proof.Machine

/-- How the stepping of a run stopped (R189). -/
inductive RunEnd where
  /-- (a) a step raised a fatal condition -/
  | fatal (f : Fault)
  /-- (b) the host stopped calling step -/
  | hostStop
  /-- a refusal of the model; no arm of `exec` gives one -/
  | refused (r : Refusal)
  deriving DecidableEq, Repr

/-- The pair of R91 (c): the final state and how the run ended. -/
structure RunReport where
  final : State
  ended : RunEnd
  deriving DecidableEq, Repr

/-- A run the host stops after `k` steps at the latest (R88, R189): after a fatal condition no further step is
taken (R158), and the final state is the state before the step that raised it (R160). -/
def report : Nat → State → RunReport
  | 0, s => ⟨s, .hostStop⟩
  | k + 1, s =>
    match step s with
    | .next s' => report k s'
    | .fault f => ⟨s, .fatal f⟩
    | .refused r => ⟨s, .refused r⟩

/-- The code of a fatal condition (R157); code 0 is `EndOfStream`, which is no fault. -/
def Fault.code : Fault → Nat
  | .decodeFailure (.unmatched _) => 1
  | .decodeFailure (.fieldRange _ _ _) => 2
  | .unmappedPC _ => 3
  | .notImplemented _ _ => 4
  | .dataAddress _ => 5

end Sys2Proof.Machine
end

