-- ==== Sys2Proof/Safety.lean ====
section
/-! DEFINITION. What the claims call a legal state, a safe run, and the parts of a state left as they were. -/

namespace Sys2Proof.Machine

/-- The states a brought-up machine can be in: every data space in canonical form and inside its size (R19, R42),
`DMEM_SIZE` in its range (R4), `pc` even (R18), and Program Memory as the load builds it (R21, R22). -/
structure State.Inv (s : State) : Prop where
  aliasWf : s.aliasSpace.wf = true
  aliasBelow : s.aliasSpace.below Config.aliasSize = true
  ioWf : s.io.wf = true
  ioBelow : s.io.below Config.ioSize = true
  extioWf : s.extio.wf = true
  extioBelow : s.extio.below Config.extioSize = true
  dataWf : s.data.wf = true
  dataBelow : s.data.below s.dmemSize = true
  dmemPos : 1 ≤ s.dmemSize
  dmemMax : s.dmemSize ≤ Config.dmemSizeMax
  pcEven : s.pc.toNat % 2 = 0
  pmWf : s.pm.wf = true

/-- A run of `k` steps that meets no fatal condition (R158): the host's stop is what ends it. -/
def SafeFor (k : Nat) (s : State) : Prop := (report k s).ended = .hostStop

/-- Every general register holds what it held. -/
def SameRegisters (s t : State) : Prop := ∀ k : RegIdx, t.reg k = s.reg k

/-- Every flag holds what it held. -/
def SameFlags (s t : State) : Prop := ∀ f : FlagName, t.flag f = s.flag f

/-- Both stack-pointer halves hold what they held. -/
def SameStackPointer (s t : State) : Prop := t.sph = s.sph ∧ t.spl = s.spl

/-- Every byte of every data space holds what it held. -/
def SameMemory (s t : State) : Prop := ∀ (sp : Space) (a : Nat), t.byteAt sp a = s.byteAt sp a

/-- The bytes an instruction stores to, by the address its meaning stores them at: the I/O byte of OUT (R112), and the
two bytes CALL pushes, at `pushAddress` and one below it modulo 2^16 (R121, D5; log 9). No other kind stores. -/
def StoresTo (i : Instr) (s : State) (sp : Space) (a : Nat) : Prop :=
  match i with
  | .out port _ => sp = .io ∧ a = ioIndex port
  | .call _ => sp = .data ∧ (a = pushAddress s ∨ a = (s.sp - 1).toNat)
  | .add _ _ | .adc _ _ | .eor _ _ | .ldi _ _ | .inp _ _ | .jmp _ | .rjmp _ | .rcall _ | .ret | .push _ | .pop _
  | .ldd _ _ _ | .std _ _ _ | .cli | .terminator => False

/-- Program Memory and the size of DATA, the arguments of the step relation, are what they were. -/
def SameArguments (s t : State) : Prop := t.pm = s.pm ∧ t.dmemSize = s.dmemSize

/-- The word offsets of a sequence of instructions laid end to end from a word offset on (R83). -/
def offsetsFrom : Nat → List Instr → List Nat
  | _, [] => []
  | off, i :: rest => off :: offsetsFrom (off + i.width) rest

/-- The instructions of a list executed one after another, stopping at the first that gives no next state. -/
def execSeq : List Instr → State → Host.Outcome State Fault Refusal
  | [], s => .next s
  | i :: rest, s =>
    match exec i s with
    | .next s' => execSeq rest s'
    | .fault f => .fault f
    | .refused r => .refused r

end Sys2Proof.Machine
end

