-- ==== Sys2Proof/Certificates/Slice0/Obligations.lean ====
section
/-! DEFINITION. The statements for the provers, from the numbered rules of spec/. -/

open Sys2Proof Sys2Proof.Machine

/-! Reset, construction and the invariant. -/

/-- R27: `pc = 0` is the source's own; the zeros of the rest are decision D7 (log 4, 5, 6), the 2048 bytes of DATA
are the model's choice (log 3), and that no program is placed is log 2. -/
def Obligations.ResetHoldsTheConstructedValues : Prop :=
  State.reset.pc = 0 ∧ State.reset.sp = 0 ∧ (∀ k, State.reset.reg k = 0) ∧ (∀ f, State.reset.flag f = false) ∧
    (∀ sp a, State.reset.byteAt sp a = 0) ∧ State.reset.pm = [] ∧ State.reset.dmemSize = 2048

def Obligations.ResetMeetsTheInvariant : Prop := State.reset.Inv

/-- Every step keeps: the data spaces canonical and inside their sizes (R19, R42), `pc` even (R18), Program Memory
as the load builds it (R21, R22, R40), and `DMEM_SIZE` in its range (R4). -/
def Obligations.StepKeepsTheInvariant : Prop :=
  ∀ s t : State, s.Inv → step s = .next t → t.Inv

/-- R180, R27, R84: what a completed bring-up leaves, for every image, `DMEM_SIZE` and `SP_INIT`. The zeros are
decision D7 (log 4, 6). -/
def Obligations.BringUpMeetsTheInvariant : Prop :=
  ∀ (img : List Word) (size : Nat) (spInit : BitVec 16) (s : State), bringUp img size spInit = .next s →
    s.Inv ∧ s.pc = 0 ∧ s.sp = spInit ∧ s.dmemSize = size ∧ (∀ k, s.reg k = 0) ∧ (∀ f, s.flag f = false) ∧
      (∀ sp a, s.byteAt sp a = 0)

/-! Encoding and decoding. -/

/-- R63: "For every kind, decoding the encoder's output gives back the operands", for every well-formed
instruction and whatever words follow. The fixed bits are log 11. -/
def Obligations.DecodeOfEncodeGivesTheInstructionBack : Prop :=
  ∀ (i : Instr) (rest : List Word), i.wellFormed = true →
    decodeOne (encode i ++ rest) 0 = .decoded i i.width

/-- R63: "encoding the decoder's output gives back the word"; and every decoded value is in the ranges of R22.
The fixed bits are log 11. -/
def Obligations.EncodeOfDecodeGivesTheWordsBack : Prop :=
  ∀ (img : List Word) (off : Nat) (i : Instr) (n : Nat), decodeOne img off = .decoded i n →
    i.wellFormed = true ∧ n = i.width ∧ encode i = (img.drop off).take n

/-- R55: no word matches two rows of the pattern list, so the order of the tests is not observable. The fixed bits
are log 11. -/
def Obligations.PatternRowsAreDisjoint : Prop :=
  ∀ (w : Word) (p q : Pattern), p ∈ patterns → q ∈ patterns → p.hits w = true → q.hits w = true → p = q

/-- R59: with a second word at hand, a word is exactly one of: an instruction of the pattern list, the
terminator, or illegal (R57, R58, R81). Which words the rows match is the fixed bits of log 11. -/
def Obligations.EveryWordIsInstructionTerminatorOrIllegal : Prop :=
  ∀ (w w1 : Word) (rest : List Word),
    ((∃ p ∈ patterns, p.hits w = true) ∧ w ≠ 0 ∧
      ∃ i, decodeOne (w :: w1 :: rest) 0 = .decoded i i.width) ∨
    ((∀ p ∈ patterns, p.hits w = false) ∧ w = 0 ∧ decodeOne (w :: w1 :: rest) 0 = .endOfStream) ∨
    ((∀ p ∈ patterns, p.hits w = false) ∧ w ≠ 0 ∧
      decodeOne (w :: w1 :: rest) 0 = .failure (.unmatched w))

/-- R57: a zero word at an instruction start ends the stream; a zero word taken as the second word of JMP or CALL
is data of that instruction; and the zero word matches no row, which rests on the presumed fixed bits (log 11). -/
def Obligations.ZeroWordEndsTheStreamOnlyAtAnInstructionStart : Prop :=
  (∀ rest, decodeOne (0 :: rest) 0 = .endOfStream) ∧ (∀ p ∈ patterns, p.hits 0 = false) ∧
    ∀ (w : Word) (p : Pattern) (rest : List Word), matchWord w = some p → p.words = 2 →
      ∃ i, decodeOne (w :: 0 :: rest) 0 = .decoded i 2

/-- R56: the length is the matched row's and nothing else's; JMP and CALL are two words, every other row one; the
second word is taken whatever its value. -/
def Obligations.LengthIsThatOfTheMatchedRow : Prop :=
  (∀ p ∈ patterns, p.words = if p.kind = .jmp ∨ p.kind = .call then 2 else 1) ∧
    (∀ (w : Word) (p : Pattern) (w1 : Word) (rest : List Word), matchWord w = some p →
      ∃ i, decodeOne (w :: w1 :: rest) 0 = .decoded i p.words ∧ i.width = p.words)

/-- R81, R151: the stream running out, at an instruction start or where a second word is wanted, is no error. -/
def Obligations.RunningOutOfWordsEndsTheStream : Prop :=
  (∀ (img : List Word) (off : Nat), img.length ≤ off → decodeOne img off = .endOfStream) ∧
    ∀ (img : List Word) (w : Word) (p : Pattern), matchWord w = some p → p.words = 2 →
      decodeOne (img ++ [w]) img.length = .endOfStream

/-- R52, R64, format RR: the operands of every word of the three register-pair rows, computed as numbers. The
fixed bits are log 11. -/
def Obligations.RegisterPairWordsDecodeToTheirFields : Prop :=
  ∀ (w : Word) (rest : List Word),
    let d : RegIdx := Fin.ofNat 32 (w.toNat / 16)
    let r : RegIdx := Fin.ofNat 32 (w.toNat / 512 % 2 * 16 + w.toNat % 16)
    (w.toNat / 1024 = 3 → decodeOne (w :: rest) 0 = .decoded (.add d r) 1) ∧
    (w.toNat / 1024 = 7 → decodeOne (w :: rest) 0 = .decoded (.adc d r) 1) ∧
    (w.toNat / 1024 = 9 → decodeOne (w :: rest) 0 = .decoded (.eor d r) 1)

/-- R52, R64, formats IMM and IO, for every word of LDI, IN and OUT. The fixed bits are log 11. -/
def Obligations.ImmediateAndIoWordsDecodeToTheirFields : Prop :=
  ∀ (w : Word) (rest : List Word),
    let k : Byte := BitVec.ofNat 8 (w.toNat / 256 % 16 * 16 + w.toNat % 16)
    let reg : RegIdx := Fin.ofNat 32 (w.toNat / 16)
    let a : IoAddr := Fin.ofNat 64 (w.toNat / 512 % 4 * 16 + w.toNat % 16)
    (w.toNat / 4096 = 14 →
      decodeOne (w :: rest) 0 = .decoded (.ldi (Fin.ofNat 32 (16 + w.toNat / 16 % 16)) k) 1) ∧
    (w.toNat / 2048 = 22 → decodeOne (w :: rest) 0 = .decoded (.inp reg a) 1) ∧
    (w.toNat / 2048 = 23 → decodeOne (w :: rest) 0 = .decoded (.out a reg) 1)

/-- R52, R64, format ABS, for every pair of words of JMP and CALL. The order of the upper address bits is
decision D24 and the absence of any other shift D23 (log 20); the fixed bits are log 11. -/
def Obligations.AbsoluteWordsDecodeToTwiceTheWordAddress : Prop :=
  ∀ (w w1 : Word) (rest : List Word),
    let target : Pc := BitVec.ofNat 23 (2 * (w.toNat / 16 % 32 * 131072 + w.toNat % 2 * 65536 + w1.toNat))
    (w.toNat / 512 = 74 → w.toNat / 2 % 8 = 6 →
      decodeOne (w :: w1 :: rest) 0 = .decoded (.jmp target) 2) ∧
    (w.toNat / 512 = 74 → w.toNat / 2 % 8 = 7 →
      decodeOne (w :: w1 :: rest) 0 = .decoded (.call target) 2)

/-- R52, R64, R65, format REL: sign extension and doubling for every word of RJMP and RCALL, and no field value
rejected (decision D11, log 20); the fixed bits are log 11. -/
def Obligations.RelativeWordsDecodeToTwiceTheSignedField : Prop :=
  ∀ (w : Word) (rest : List Word),
    let k : Int := (w.toNat % 4096 : Nat)
    let disp : Int := if k < 2048 then 2 * k else 2 * (k - 4096)
    (w.toNat / 4096 = 12 → decodeOne (w :: rest) 0 = .decoded (.rjmp disp) 1) ∧
    (w.toNat / 4096 = 13 → decodeOne (w :: rest) 0 = .decoded (.rcall disp) 1)

/-- R52, R64, R132, R133, format DISP: the split displacement, the register and the pointer for every word of the
four rows. The select bits and the fixed bits are decisions D12 and D9 (log 11). -/
def Obligations.DisplacedWordsDecodeToTheirFields : Prop :=
  ∀ (w : Word) (rest : List Word),
    let q : Disp6 := Fin.ofNat 64 (w.toNat / 8192 % 2 * 32 + w.toNat / 1024 % 4 * 8 + w.toNat % 8)
    let reg : RegIdx := Fin.ofNat 32 (w.toNat / 16)
    let ptr : Ptr := if w.toNat / 8 % 2 = 1 then .Y else .Z
    w.toNat / 16384 = 2 → w.toNat / 4096 % 2 = 0 →
      (w.toNat / 512 % 2 = 0 → decodeOne (w :: rest) 0 = .decoded (.ldd reg ptr q) 1) ∧
      (w.toNat / 512 % 2 = 1 → decodeOne (w :: rest) 0 = .decoded (.std ptr q reg) 1)

/-- R124, R130, R131, R140, formats FIXED and REG1. The fixed bits and the register field are log 11. -/
def Obligations.FixedAndSingleRegisterWordsDecode : Prop :=
  ∀ (w : Word) (rest : List Word),
    let reg : RegIdx := Fin.ofNat 32 (w.toNat / 16)
    (w = 0x9508 → decodeOne (w :: rest) 0 = .decoded .ret 1) ∧
    (w = 0x94F8 → decodeOne (w :: rest) 0 = .decoded .cli 1) ∧
    (w.toNat / 512 = 73 → w.toNat % 16 = 15 → decodeOne (w :: rest) 0 = .decoded (.push reg) 1) ∧
    (w.toNat / 512 = 72 → w.toNat % 16 = 15 → decodeOne (w :: rest) 0 = .decoded (.pop reg) 1)

/-- Words of spec/95_test_vectors.md, one or more a format: sections 1 and 2 for all but 0xBF1F and 0x2D01, which
stand in section 3 (P1, P7). Which kind each word is, and that 0x2D01 is none, rests on the presumed fixed bits
(log 11); the CALL target on the order of its upper bits and the absence of another shift (D24, D23, log 20) and on
the program counter's unit (D1, log 7), on which the RJMP displacement rests too. -/
def Obligations.SpecVectorsDecode : Prop :=
  decodeOne [0x2712] 0 = .decoded (.eor 17 18) 1 ∧
  decodeOne [0xEA5C] 0 = .decoded (.ldi 21 0xAC) 1 ∧
  decodeOne [0xBF1F] 0 = .decoded (.out 0x3F 17) 1 ∧
  decodeOne [0x95EE, 0xABCD] 0 = .decoded (.call 0x79579A) 2 ∧
  decodeOne [0xCFFF] 0 = .decoded (.rjmp (-2)) 1 ∧
  decodeOne [0xA45A] 0 = .decoded (.ldd 5 .Y 42) 1 ∧
  decodeOne [0x90AF] 0 = .decoded (.pop 10) 1 ∧
  decodeOne [0x2D01] 0 = .failure (.unmatched 0x2D01)

/-- R60: the range check accepts register values up to 31 with displacements up to 63 and nothing else, and never
wraps. Which field is reported when both are out of range is the model's choice (log 15). -/
def Obligations.RangeCheckRejectsRegister32AndDisplacement64 : Prop :=
  ∀ (w : Word) (reg q : Nat) (build : RegIdx → Disp6 → Instr),
    (∀ (hr : reg ≤ 31) (hq : q ≤ 63),
      checkedDisp w reg q build = .decoded (build ⟨reg, by omega⟩ ⟨q, by omega⟩) 1) ∧
    (32 ≤ reg → checkedDisp w reg q build = .failure (.fieldRange w .register reg)) ∧
    (reg ≤ 31 → 64 ≤ q → checkedDisp w reg q build = .failure (.fieldRange w .q q))

/-! The load and Program Memory. -/

/-- R83: the loop of the load, from any word offset, one turn of it. That an offset enters the table only together
with its instruction is decision D17. -/
def Obligations.LoadFollowsItsLoop : Prop :=
  ∀ (img : List Word) (off : Nat),
    (∀ i n, decodeOne img off = .decoded i n → loadFrom img off = (loadFrom img (off + n)).cons i off) ∧
    (decodeOne img off = .endOfStream → loadFrom img off = .loaded [] []) ∧
    (∀ f, decodeOne img off = .failure f → loadFrom img off = .loadFault f)

/-- R24, R83: the two sequences are in lock-step (decision D17), the first offset is 0, and each next one is a width further. -/
def Obligations.LoadOffsetsAdvanceByWidths : Prop :=
  ∀ (img : List Word) (instrs : List Instr) (offsets : List Nat), load img = .loaded instrs offsets →
    offsets = offsetsFrom 0 instrs ∧ offsets.length = instrs.length

/-- R83, R184: an image that encodes a sequence of instructions, ended by the end of the image or by a terminator
word with anything at all after it, loads to exactly that sequence. The fixed bits are log 11, and that offsets enter
with their instructions is decision D17. -/
def Obligations.EncodedSequenceLoadsBack : Prop :=
  ∀ (prog : List Instr) (after : List Word), (∀ i ∈ prog, i.wellFormed = true) →
    load (prog.flatMap encode) = .loaded prog (offsetsFrom 0 prog) ∧
    load (prog.flatMap encode ++ 0 :: after) = .loaded prog (offsetsFrom 0 prog)

/-- R21, R84: Program Memory has an entry at a key exactly where the load began an instruction, the entry is what
one decode gives there, and the key is twice the word offset (decision D3, log 7). -/
def Obligations.ProgramMemoryHoldsExactlyTheInstructionStarts : Prop :=
  ∀ (img : List Word) (instrs : List Instr) (offsets : List Nat), load img = .loaded instrs offsets →
    ∀ (a : Nat) (i : Instr) (n : Nat),
      (ProgramMemory.ofLoad instrs offsets).lookup a = some (i, n) ↔
        ∃ off ∈ offsets, a = 2 * off ∧ decodeOne img off = .decoded i n

/-- R21, R33, R186: the second word of a loaded two-word instruction has no entry, and no odd address has one. That
keys are twice the word offset is decision D3 (log 7). -/
def Obligations.SecondWordsAndOddAddressesHaveNoEntry : Prop :=
  ∀ (img : List Word) (instrs : List Instr) (offsets : List Nat), load img = .loaded instrs offsets →
    (∀ (a : Nat) (i : Instr), (ProgramMemory.ofLoad instrs offsets).lookup a = some (i, 2) →
      (ProgramMemory.ofLoad instrs offsets).lookup (a + 2) = none) ∧
    (∀ a, a % 2 = 1 → (ProgramMemory.ofLoad instrs offsets).lookup a = none)

/-- R152, R153: the only decode failure a load can end in is an unmatched word of the image; the range check never
fires on a word. Which words match a row is the fixed bits of log 11. -/
def Obligations.LoadFaultRecordsAnUnmatchedWordOfTheImage : Prop :=
  ∀ (img : List Word) (f : DecodeFailure), load img = .loadFault f →
    ∃ (off : Nat) (w : Word), img[off]? = some w ∧ w ≠ 0 ∧ (∀ p ∈ patterns, p.hits w = false) ∧ f = .unmatched w

/-- R170, R180: with arguments in the ranges of R4, the bring-up ends in a fault exactly when the load does, with
the load's failure, and otherwise enters the run. What is refused outside those ranges is log 16. -/
def Obligations.BringUpFaultsExactlyOnALoadFault : Prop :=
  ∀ (img : List Word) (size : Nat) (spInit : BitVec 16), 1 ≤ size → size ≤ 65536 → img.length ≤ 2 ^ 22 →
    (∀ f, bringUp img size spInit = .fault f ↔ ∃ d, load img = .loadFault d ∧ f = .decodeFailure d) ∧
    (∀ instrs offsets, load img = .loaded instrs offsets →
      ∃ s, bringUp img size spInit = .next s ∧ s.pm = ProgramMemory.ofLoad instrs offsets)

/-! The step. -/

/-- R85: a miss is fatal, a hit runs the instruction's execute, and the engine does nothing else: "The engine does
not advance `pc`, does not check the result, and does nothing between steps." -/
def Obligations.StepLooksUpAndExecutes : Prop :=
  ∀ s : State,
    (s.pm.lookup s.pc.toNat = none → step s = .fault (.unmappedPC s.pc)) ∧
    (∀ i n, s.pm.lookup s.pc.toNat = some (i, n) → step s = exec i s)

/-- R84, R85, R89: in a run of a loaded image, where the words at `pc` decode to an instruction at which the load
began one, the step is that instruction's execute. That `pc` is twice the word offset is decision D1 (log 7). -/
def Obligations.StepRunsTheInstructionDecodedFromTheImage : Prop :=
  ∀ (img : List Word) (instrs : List Instr) (offsets : List Nat) (s : State) (off : Nat) (i : Instr) (n : Nat),
    load img = .loaded instrs offsets → s.pm = ProgramMemory.ofLoad instrs offsets →
    off ∈ offsets → s.pc.toNat = 2 * off → decodeOne img off = .decoded i n →
    step s = exec i s

/-- The placing of one opcode-table word (log 2, 22): the next step runs what the decoder reads from it, the
terminator row included (R141). -/
def Obligations.PlacedTableWordIsRunNext : Prop :=
  ∀ (s : State) (nbits w : Nat) (i : Instr), decodeTableWord nbits w = some i →
    step (s.withFetchWord nbits w) = exec i (s.withFetchWord nbits w)

/-- R8, R154 to R156, R159: everything a step can end in. A fault is an unmapped `pc`, a decode-only kind that was
looked up, or a CALL with a stack address outside DATA; no step refuses. The `DataAddress` fault is decision D6
(log 10), the emitted render inside the `NotImplemented` fault is the model's (log 13), `UnmappedPC` for a
terminator entry, which no load makes, is the model's (log 1), and the address below SP wraps by D5 (log 9). -/
def Obligations.StepOutcomesAreTheSpecs : Prop :=
  ∀ s : State,
    (∃ t i n, step s = .next t ∧ s.pm.lookup s.pc.toNat = some (i, n) ∧ i.executes = true) ∨
    (step s = .fault (.unmappedPC s.pc) ∧
      ∀ i n, s.pm.lookup s.pc.toNat = some (i, n) → i = .terminator) ∨
    (∃ i n, s.pm.lookup s.pc.toNat = some (i, n) ∧ i.executes = false ∧
      step s = .fault (.notImplemented i (render i))) ∨
    (∃ target n a, s.pm.lookup s.pc.toNat = some (.call target, n) ∧ s.dmemSize ≤ a ∧
      (a = s.sp.toNat ∨ a = (s.sp - 1).toNat) ∧ step s = .fault (.dataAddress a))

/-! What each executed instruction does, with its frame. -/

/-- R100: EOR completes in every state, `R[d]` becomes `R[d] XOR R[r]` of the old values (so `EOR Rd, Rd` clears),
and nothing but `R[d]` and `pc` changes, no flag in particular. `pc + 2` is decision D1 (log 7). -/
def Obligations.EorWritesExclusiveOrAndNothingElse : Prop :=
  ∀ (d r : RegIdx) (s : State), ∃ t, exec (.eor d r) s = .next t ∧
    t.reg d = s.reg d ^^^ s.reg r ∧ (d = r → t.reg d = 0) ∧ (∀ k, k ≠ d → t.reg k = s.reg k) ∧
    t.pc.toNat = (s.pc.toNat + 2) % 2 ^ 23 ∧
    SameFlags s t ∧ SameStackPointer s t ∧ SameMemory s t ∧ SameArguments s t

/-- R110: LDI completes in every state, `R[d]` becomes `K`, and nothing but `R[d]` and `pc` changes. `pc + 2` is
decision D1 (log 7). -/
def Obligations.LdiWritesTheImmediateAndNothingElse : Prop :=
  ∀ (d : RegIdx) (k : Byte) (s : State), ∃ t, exec (.ldi d k) s = .next t ∧
    t.reg d = k ∧ (∀ j, j ≠ d → t.reg j = s.reg j) ∧
    t.pc.toNat = (s.pc.toNat + 2) % 2 ^ 23 ∧
    SameFlags s t ∧ SameStackPointer s t ∧ SameMemory s t ∧ SameArguments s t

/-- R112, R20: OUT completes in every state with a canonical I/O space; the byte of IO at `ioIndex a` becomes
`R[r]`, every other byte of every space is as before (0x3D, 0x3E and 0x3F reach no SP and no flag, log 19), and
no register, flag or stack-pointer half changes. `pc + 2` is decision D1 (log 7). -/
def Obligations.OutWritesOneIoByteAndNothingElse : Prop :=
  ∀ (a : IoAddr) (r : RegIdx) (s : State), s.io.wf = true → ∃ t, exec (.out a r) s = .next t ∧
    t.byteAt .io (ioIndex a) = s.reg r ∧ ioIndex a = a.val ∧
    (∀ sp x, ¬ (sp = .io ∧ x = ioIndex a) → t.byteAt sp x = s.byteAt sp x) ∧
    t.pc.toNat = (s.pc.toNat + 2) % 2 ^ 23 ∧
    SameRegisters s t ∧ SameFlags s t ∧ SameStackPointer s t ∧ SameArguments s t

/-- R120, R125: JMP completes in every state, whatever stands at its target; `pc` becomes the target and nothing
else changes. -/
def Obligations.JmpSetsThePcAndNothingElse : Prop :=
  ∀ (target : Pc) (s : State), ∃ t, exec (.jmp target) s = .next t ∧
    t.pc = target ∧ SameRegisters s t ∧ SameFlags s t ∧ SameStackPointer s t ∧ SameMemory s t ∧ SameArguments s t

/-- R121, R31, R34: CALL completes where both stack addresses lie in DATA. The low byte of the return address goes
to `pushAddress s`, the high byte to the address below it (modulo 2^16), SP falls by two (decision D5, log 9), `pc`
becomes the target, and no other byte, register or flag changes. The return address, the low 16 bits of `pc + 4`,
is decision D4 (log 8). -/
def Obligations.CallPushesTheReturnAddressAndJumps : Prop :=
  ∀ (target : Pc) (s : State), s.data.wf = true →
    s.sp.toNat < s.dmemSize → (s.sp - 1).toNat < s.dmemSize →
    ∃ t, exec (.call target) s = .next t ∧
      pushAddress s = s.sp.toNat ∧
      t.byteAt .data (pushAddress s) = BitVec.ofNat 8 ((s.pc.toNat + 4) % 2 ^ 23) ∧
      t.byteAt .data (s.sp - 1).toNat = BitVec.ofNat 8 ((s.pc.toNat + 4) % 2 ^ 23 / 256) ∧
      (∀ sp x, ¬ (sp = .data ∧ (x = pushAddress s ∨ x = (s.sp - 1).toNat)) → t.byteAt sp x = s.byteAt sp x) ∧
      t.sp = s.sp - 2 ∧ t.pc = target ∧
      SameRegisters s t ∧ SameFlags s t ∧ SameArguments s t

/-- R121, R156, R159: a CALL whose first stack address is outside DATA records that address, else one whose second
is records the second, and a CALL raises nothing else. The bounds fault is decision D6 (log 10). With `DMEM_SIZE` in
its range the second clause is reached at SP = 0 only, by the wrap of SP - 1 to 0xFFFF, which is decision D5
(log 9). -/
def Obligations.CallRaisesDataAddressExactlyOutsideDataMemory : Prop :=
  ∀ (target : Pc) (s : State),
    (s.dmemSize ≤ s.sp.toNat → exec (.call target) s = .fault (.dataAddress s.sp.toNat)) ∧
    (s.sp.toNat < s.dmemSize → s.dmemSize ≤ (s.sp - 1).toNat →
      exec (.call target) s = .fault (.dataAddress (s.sp - 1).toNat)) ∧
    (s.sp.toNat < s.dmemSize → (s.sp - 1).toNat < s.dmemSize → ∃ t, exec (.call target) s = .next t)

/-- R87, R155: executing any of the eleven decode-only kinds raises `Fatal.NotImplemented` of that very
instruction, after its render is emitted, in every state and for every operand; there is no successor state. That
the emission is written as the condition's second component is the model's (log 13). -/
def Obligations.DecodeOnlyKindsRaiseNotImplemented : Prop :=
  ∀ (s : State) (d r : RegIdx) (a : IoAddr) (disp : Int) (ptr : Ptr) (q : Disp6),
    exec (.add d r) s = .fault (.notImplemented (.add d r) (render (.add d r))) ∧
    exec (.adc d r) s = .fault (.notImplemented (.adc d r) (render (.adc d r))) ∧
    exec (.inp d a) s = .fault (.notImplemented (.inp d a) (render (.inp d a))) ∧
    exec (.rjmp disp) s = .fault (.notImplemented (.rjmp disp) (render (.rjmp disp))) ∧
    exec (.rcall disp) s = .fault (.notImplemented (.rcall disp) (render (.rcall disp))) ∧
    exec .ret s = .fault (.notImplemented .ret (render .ret)) ∧
    exec (.push r) s = .fault (.notImplemented (.push r) (render (.push r))) ∧
    exec (.pop d) s = .fault (.notImplemented (.pop d) (render (.pop d))) ∧
    exec (.ldd d ptr q) s = .fault (.notImplemented (.ldd d ptr q) (render (.ldd d ptr q))) ∧
    exec (.std ptr q r) s = .fault (.notImplemented (.std ptr q r) (render (.std ptr q r))) ∧
    exec .cli s = .fault (.notImplemented .cli (render .cli))

/-- R141: the terminator row has no execute; where a terminator stood the outcome is `Fatal.UnmappedPC`. That it
has a constructor and an arm at all is the model's choice (log 1). -/
def Obligations.TerminatorRowRaisesUnmappedPc : Prop :=
  ∀ s : State, exec .terminator s = .fault (.unmappedPC s.pc)

/-! Whole-machine rules. -/

/-- R13: no instruction writes any flag and no instruction reads any flag: a step keeps all eight, a run of any
length keeps them, and replacing them changes nothing else of any outcome. -/
def Obligations.FlagsAreNeverWrittenAndNeverRead : Prop :=
  (∀ s t : State, step s = .next t → t.flags = s.flags) ∧
  (∀ (k : Nat) (s : State), (report k s).final.flags = s.flags) ∧
  (∀ (i : Instr) (s : State) (f : Flags),
    (∀ t, exec i s = .next t → exec i (s.setFlags f) = .next (t.setFlags f)) ∧
    (∀ e, exec i s = .fault e → exec i (s.setFlags f) = .fault e))

/-- R40: no instruction writes Program Memory, and the instruction found at a given address is the same after any
number of steps. -/
def Obligations.ProgramMemoryIsReadOnly : Prop :=
  (∀ (i : Instr) (s t : State), exec i s = .next t → t.pm = s.pm) ∧
  (∀ (k : Nat) (s : State) (a : Nat), (report k s).final.pm.lookup a = s.pm.lookup a)

/-- R11: LDI reaches R16 to R31 only, OUT, JMP and CALL touch no general register, so a step changes one of R0 to
R15 only by an EOR into it, and then to the exclusive or of two values already present. -/
def Obligations.LowRegistersChangeOnlyByEor : Prop :=
  ∀ (s t : State) (k : RegIdx), s.pm.wf = true → step s = .next t → k.val < 16 → t.reg k ≠ s.reg k →
    ∃ r n, s.pm.lookup s.pc.toNat = some (.eor k r, n) ∧ t.reg k = s.reg k ^^^ s.reg r

/-- R14: CALL is the only instruction that writes SPH or SPL. That it moves SP down by two is the push sequence of
R121, and the wrap of that at SP = 0 and SP = 1 is decision D5 (log 9). -/
def Obligations.StackPointerMovesOnlyByCall : Prop :=
  ∀ (i : Instr) (s t : State), exec i s = .next t →
    (SameStackPointer s t ∧ ∀ target, i ≠ .call target) ∨ (∃ target, i = .call target ∧ t.sp = s.sp - 2)

/-- R30: no instruction reaches ALIAS or EXTIO; OUT alone reaches IO; CALL alone reaches DATA. That ALIAS is reached
by none is decision D8, and that OUT reaches IO alone and EXTIO is reached by none is decision D21 (log 19). -/
def Obligations.EachDataSpaceIsReachedByItsOwnKind : Prop :=
  ∀ (i : Instr) (s t : State), exec i s = .next t →
    t.aliasSpace = s.aliasSpace ∧ t.extio = s.extio ∧
    (t.io ≠ s.io → ∃ a r, i = .out a r) ∧ (t.data ≠ s.data → ∃ target, i = .call target)

/-- R34: no executed instruction reads any data space: whatever the four spaces hold, the outcome, and every
register, flag, stack-pointer half and `pc` after it, are the same; and, with IO and DATA canonical, so is every byte
the instruction stores, while every other byte is the one that stood there. That registers, SP and flags are stored in
none of the four is decision D8 (log 19), the low stack address of CALL at SP = 0 is decision D5 (log 9), and that a
fault is the same fault rests, for CALL, on decision D6 (log 10). -/
def Obligations.DataSpacesAreNeverRead : Prop :=
  ∀ (i : Instr) (s : State) (m1 m2 m3 m4 : Memory),
    let u : State := { s with aliasSpace := m1, io := m2, extio := m3, data := m4 }
    (∀ t, exec i s = .next t → ∃ t', exec i u = .next t' ∧ t'.regs = t.regs ∧ t'.flags = t.flags ∧
      t'.sph = t.sph ∧ t'.spl = t.spl ∧ t'.pc = t.pc ∧ t'.pm = t.pm ∧ t'.dmemSize = t.dmemSize ∧
      (s.io.wf = true → s.data.wf = true → m2.wf = true → m4.wf = true → ∀ (sp : Space) (a : Nat),
        (StoresTo i s sp a → t'.byteAt sp a = t.byteAt sp a) ∧
        (¬ StoresTo i s sp a → t'.byteAt sp a = u.byteAt sp a))) ∧
    (∀ f, exec i s = .fault f → exec i u = .fault f)

/-- R42, R20: the two memory primitives on any space. Outside the space both raise and record the address (decision
D6, log 10); inside, a write is read back and changes no other byte of any space. That it touches no register, flag
or stack-pointer half, a write to ALIAS in particular, is decision D8 (log 19). -/
def Obligations.MemoryPrimitivesReadBackAndAliasNothing : Prop :=
  ∀ (sp : Space) (addr : Nat) (v : Byte) (s : State), (s.space sp).wf = true →
    (s.spaceSize sp ≤ addr → memRead sp addr s = .error (.dataAddress addr) ∧
      memWrite sp addr v s = .error (.dataAddress addr)) ∧
    (addr < s.spaceSize sp → ∃ t, memWrite sp addr v s = .ok t ∧ memRead sp addr t = .ok v ∧
      (∀ sp' a, ¬ (sp' = sp ∧ a = addr) → memRead sp' a t = memRead sp' a s) ∧
      SameRegisters s t ∧ SameFlags s t ∧ SameStackPointer s t ∧ SameArguments s t ∧ t.pc = s.pc)

/-- Two spaces in canonical form that read the same at every address are the same list, so equal memories are equal
data. The form is the model's own (log 6). -/
def Obligations.CanonicalSpacesWithEqualBytesAreEqual : Prop :=
  ∀ m m' : Memory, m.wf = true → m'.wf = true → (∀ a, m.read a = m'.read a) → m = m'

/-- R15: SP moves as one 16-bit quantity; the borrow and the carry cross the halves, so from 0x0100 the decrement
gives 0x00FF. The wrap at the ends of the range is decision D5 (log 9). -/
def Obligations.StackPointerMovesAsOneQuantity : Prop :=
  ∀ s : State,
    s.decSp.sp.toNat = (s.sp.toNat + 65535) % 65536 ∧ s.incSp.sp.toNat = (s.sp.toNat + 1) % 65536 ∧
    (s.spl = 0 → s.decSp.sph = s.sph - 1 ∧ s.decSp.spl = 0xFF) ∧
    (s.spl ≠ 0 → s.decSp.sph = s.sph ∧ s.decSp.spl = s.spl - 1)

/-- R61, R62: kind by kind, render gives the kind's own mnemonic and the fields of R22, each unchanged and each as the
sort of operand it is; so two instructions with the same render are the same instruction. The order of the operands
is that of R61's table (decision D16, log 14), and the empty render of the terminator row is the model's (log 1). -/
def Obligations.RenderDeterminesTheInstruction : Prop :=
  (∀ (d r : RegIdx) (k : Byte) (a : IoAddr) (t : Pc) (x : Int) (p : Ptr) (q : Disp6),
    render .ret = ⟨"RET", []⟩ ∧
    render .cli = ⟨"CLI", []⟩ ∧
    render (.push r) = ⟨"PUSH", [.reg r]⟩ ∧
    render (.pop d) = ⟨"POP", [.reg d]⟩ ∧
    render (.jmp t) = ⟨"JMP", [.target t]⟩ ∧
    render (.call t) = ⟨"CALL", [.target t]⟩ ∧
    render (.add d r) = ⟨"ADD", [.reg d, .reg r]⟩ ∧
    render (.adc d r) = ⟨"ADC", [.reg d, .reg r]⟩ ∧
    render (.eor d r) = ⟨"EOR", [.reg d, .reg r]⟩ ∧
    render (.ldi d k) = ⟨"LDI", [.reg d, .imm k]⟩ ∧
    render (.inp d a) = ⟨"IN", [.reg d, .ioAddr a]⟩ ∧
    render (.out a r) = ⟨"OUT", [.ioAddr a, .reg r]⟩ ∧
    render (.rjmp x) = ⟨"RJMP", [.rel x]⟩ ∧
    render (.rcall x) = ⟨"RCALL", [.rel x]⟩ ∧
    render (.ldd d p q) = ⟨"LDD", [.reg d, .indexed p q]⟩ ∧
    render (.std p q r) = ⟨"STD", [.indexed p q, .reg r]⟩ ∧
    render .terminator = ⟨"", []⟩) ∧
  ∀ i j : Instr, render i = render j → i = j

/-- R158: once a run has met a fatal condition no further step is taken, however many the host would still call,
and no budget from there on counts as a run without fault. -/
def Obligations.FatalConditionEndsTheRun : Prop :=
  ∀ (k j : Nat) (s : State) (f : Fault), (report k s).ended = .fatal f →
    report (k + j) s = report k s ∧ ¬ SafeFor (k + j) s

/-- R88, R189, R160: a run ends in exactly one of two ways: a step of it raised a fatal condition, and the final
state is the state before that step (decision D15, log 10), or the host stopped after that many completed steps
(decision D18, log 17); no instruction ends it. -/
def Obligations.RunEndsByFatalConditionOrHostStop : Prop :=
  ∀ (k : Nat) (s : State),
    ((report k s).ended = .hostStop ∧ Host.Core.run Sys2Proof.core k s = .next (report k s).final) ∨
    (∃ f, (report k s).ended = .fatal f ∧ step (report k s).final = .fault f ∧
      Host.Core.run Sys2Proof.core k s = .fault f)

/-- R88, R185: a jump to itself is an endless run that changes nothing. -/
def Obligations.JumpToItselfNeverEnds : Prop :=
  ∀ (s : State) (n k : Nat), s.pm.lookup s.pc.toNat = some (.jmp s.pc, n) → report k s = ⟨s, .hostStop⟩

/-- R185: EOR, LDI and OUT advance unconditionally, so where nothing is loaded after one of them the next step
raises `Fatal.UnmappedPC` of the advanced `pc`. `pc + 2` is decision D1 (log 7). -/
def Obligations.FallingThroughTheLastInstructionIsFatal : Prop :=
  ∀ (s : State) (i : Instr) (n : Nat), s.pm.lookup s.pc.toNat = some (i, n) →
    ((∃ d r, i = .eor d r) ∨ (∃ d k, i = .ldi d k) ∨ (∃ a r, i = .out a r)) →
    s.pm.lookup ((s.pc.toNat + 2) % 2 ^ 23) = none →
    ∃ t, step s = .next t ∧ step t = .fault (.unmappedPC (s.pc + 2))

/-- R125, R154: a transfer never faults on its target; the step after it does, when nothing is loaded there. -/
def Obligations.TransferToUnmappedTargetFaultsOneStepLater : Prop :=
  ∀ (s : State) (target : Pc) (n : Nat), s.pm.lookup target.toNat = none →
    (s.pm.lookup s.pc.toNat = some (.jmp target, n) →
      ∃ t, step s = .next t ∧ step t = .fault (.unmappedPC target)) ∧
    (s.pm.lookup s.pc.toNat = some (.call target, n) →
      s.sp.toNat < s.dmemSize → (s.sp - 1).toNat < s.dmemSize →
      ∃ t, step s = .next t ∧ step t = .fault (.unmappedPC target))

/-- R181, R187: with `2 * n - 1 <= SP_INIT < DMEM_SIZE`, `n` nested CALLs stay inside data memory: all complete,
SP has fallen by `2 * n`, and no byte of DATA outside the `2 * n` pushed ones has changed. From SP = 2n-1 the final
SP wraps to 0xFFFF, which is decision D5 (log 9). -/
def Obligations.NestedCallsStayInsideDataMemory : Prop :=
  ∀ (targets : List Pc) (s : State), s.data.wf = true →
    2 * targets.length - 1 ≤ s.sp.toNat → s.sp.toNat < s.dmemSize →
    ∃ t, execSeq (targets.map .call) s = .next t ∧
      t.sp = s.sp - BitVec.ofNat 16 (2 * targets.length) ∧
      (∀ a, (s.sp.toNat < a ∨ a + 2 * targets.length ≤ s.sp.toNat) → t.byteAt .data a = s.byteAt .data a) ∧
      SameRegisters s t ∧ SameFlags s t ∧ SameArguments s t
end

