-- ==== Sys2Proof/Laws/Decode.lean ====
section
/-! SUPPORT. What the Opcode Matcher and one decode can do, said once. -/

namespace Sys2Proof

/-! Each field as a number. -/

/-- Concatenation as a number: the first operand is the more significant part (R6). -/
theorem toNat_append_eq {n m : Nat} (x : BitVec n) (y : BitVec m) :
    (x ++ y).toNat = x.toNat * 2 ^ m + y.toNat := by
  rw [BitVec.toNat_append, ← Nat.shiftLeft_add_eq_or_of_lt y.isLt, Nat.shiftLeft_eq]

/-- A slice as a number. -/
theorem toNat_slice (w : Word) (hi lo : Nat) :
    (w.extractLsb hi lo).toNat = w.toNat / 2 ^ lo % 2 ^ (hi - lo + 1) := by
  rw [BitVec.extractLsb_toNat, Nat.shiftRight_eq_div_pow]

theorem fieldReg_toNat (w : Word) : (fieldReg w).toNat = w.toNat / 16 % 32 := toNat_slice w 8 4

theorem fieldRr_toNat (w : Word) : (fieldRr w).toNat = w.toNat / 512 % 2 * 16 + w.toNat % 16 := by
  have h : (fieldRr w).toNat = (w.extractLsb 9 9).toNat * 2 ^ 4 + (w.extractLsb 3 0).toNat := toNat_append_eq _ _
  simpa [toNat_slice, -BitVec.extractLsb_toNat] using h

theorem fieldUpperReg_toNat (w : Word) : (fieldUpperReg w).toNat = 16 + w.toNat / 16 % 16 := by
  have h : (w.extractLsb 7 4).toNat = w.toNat / 16 % 16 := toNat_slice w 7 4
  simp only [fieldUpperReg, BitVec.toNat_add, BitVec.toNat_setWidth, h]
  simp
  omega

theorem fieldImm_toNat (w : Word) : (fieldImm w).toNat = w.toNat / 256 % 16 * 16 + w.toNat % 16 := by
  have h : (fieldImm w).toNat = (w.extractLsb 11 8).toNat * 2 ^ 4 + (w.extractLsb 3 0).toNat := toNat_append_eq _ _
  simpa [toNat_slice, -BitVec.extractLsb_toNat] using h

theorem fieldIo_toNat (w : Word) : (fieldIo w).toNat = w.toNat / 512 % 4 * 16 + w.toNat % 16 := by
  have h : (fieldIo w).toNat = (w.extractLsb 10 9).toNat * 2 ^ 4 + (w.extractLsb 3 0).toNat := toNat_append_eq _ _
  simpa [toNat_slice, -BitVec.extractLsb_toNat] using h

theorem fieldAbs_toNat (w w1 : Word) :
    (fieldAbs w w1).toNat = w.toNat / 16 % 32 * 131072 + w.toNat % 2 * 65536 + w1.toNat := by
  have h : (fieldAbs w w1).toNat = (w.extractLsb 8 4 ++ w.extractLsb 0 0).toNat * 2 ^ 16 + w1.toNat :=
    toNat_append_eq _ _
  rw [h, toNat_append_eq, toNat_slice, toNat_slice]
  simp
  omega

theorem fieldRel_toNat (w : Word) : (fieldRel w).toNat = w.toNat % 4096 := by
  have h : (fieldRel w).toNat = w.toNat / 2 ^ 0 % 2 ^ 12 := toNat_slice w 11 0
  simpa using h

theorem fieldQ_toNat (w : Word) :
    (fieldQ w).toNat = w.toNat / 8192 % 2 * 32 + w.toNat / 1024 % 4 * 8 + w.toNat % 8 := by
  have h : (fieldQ w).toNat = (w.extractLsb 13 13 ++ w.extractLsb 11 10).toNat * 2 ^ 3 + (w.extractLsb 2 0).toNat :=
    toNat_append_eq _ _
  rw [h, toNat_append_eq, toNat_slice, toNat_slice, toNat_slice]
  simp
  omega

theorem fieldPtr_eq (w : Word) : fieldPtr w = if w.toNat / 8 % 2 = 1 then .Y else .Z := by
  simp [fieldPtr, BitVec.getLsbD, Nat.testBit_eq_decide_div_mod_eq]

/-- A target is twice the word address; no overflow is possible (R52). -/
theorem targetOf_toNat (k : BitVec 22) : (targetOf k).toNat = 2 * k.toNat := by
  have := k.isLt
  simp only [targetOf, pcu, BitVec.toNat_ofNat]
  omega

/-- A displacement is twice the two's-complement value of its field (R52). -/
theorem dispOf_eq (k : BitVec 12) :
    dispOf k = if k.toNat < 2048 then 2 * (k.toNat : Int) else 2 * ((k.toNat : Int) - 4096) := by
  simp only [dispOf, pcu, BitVec.toInt_eq_toNat_cond]
  split <;> split <;> omega

/-! The matcher and one decode. -/

/-- A pattern the matcher answers is a row of the list that matches the word. -/
theorem mem_of_matchWord {w : Word} {p : Pattern} (h : matchWord w = some p) : p ∈ patterns ∧ p.hits w = true :=
  ⟨List.mem_of_find?_eq_some h, List.find?_some (p := fun p : Pattern => p.hits w) h⟩

/-- Where the matcher answers none, no row matches. -/
theorem matchWord_none_iff (w : Word) : matchWord w = none ↔ ∀ p ∈ patterns, p.hits w = false := by
  simp [matchWord, List.find?_eq_none]

/-- The word source from a later offset is the word source of the rest of the image. -/
theorem nextWord_add (img : List Word) (off k : Nat) : nextWord img (off + k) = nextWord (img.drop off) k := by
  simp [nextWord, List.getElem?_drop]

/-- A decode at an offset is a decode at the start of the rest of the image. -/
theorem decodeOne_drop (img : List Word) (off : Nat) : decodeOne img off = decodeOne (img.drop off) 0 := by
  have h0 := nextWord_add img off 0
  have h1 := nextWord_add img off 1
  simp only [Nat.add_zero] at h0
  simp only [decodeOne, h0, h1, Nat.zero_add]

/-- No words, no instruction. -/
@[simp] theorem decodeOne_nil (off : Nat) : decodeOne [] off = .endOfStream := by
  simp [decodeOne, nextWord]

/-- A word that a one-word row matches is decoded alone, whatever follows. -/
theorem decodeOne_of_one_word {w : Word} {p : Pattern} (rest : List Word) (h : matchWord w = some p)
    (hp : p.words ≠ 2) : decodeOne (w :: rest) 0 = extract ⟨p.kind, 1, [w]⟩ := by
  simp [decodeOne, nextWord, h, hp]

/-- A word that a two-word row matches takes the next word, whatever it is. -/
theorem decodeOne_of_two_words {w : Word} {p : Pattern} (w1 : Word) (rest : List Word)
    (h : matchWord w = some p) (hp : p.words = 2) :
    decodeOne (w :: w1 :: rest) 0 = extract ⟨p.kind, 2, [w, w1]⟩ := by
  simp [decodeOne, nextWord, h, hp]

/-- A word no row matches. -/
theorem decodeOne_of_no_row {w : Word} (rest : List Word) (h : matchWord w = none) :
    decodeOne (w :: rest) 0 = if w = 0 then .endOfStream else .failure (.unmatched w) := by
  simp [decodeOne, nextWord, h]

/-- The range check answers an instruction exactly when both values are in range. -/
theorem checkedDisp_decoded_iff (w : Word) (reg q : Nat) (build : RegIdx → Disp6 → Instr) (i : Instr) (n : Nat) :
    checkedDisp w reg q build = .decoded i n ↔
      ∃ (hr : reg < 32) (hq : q < 64), i = build ⟨reg, hr⟩ ⟨q, hq⟩ ∧ n = 1 := by
  unfold checkedDisp
  split
  · split
    · rename_i hr hq
      simp only [DecodeOutcome.decoded.injEq]
      exact ⟨fun h => ⟨hr, hq, h.1.symm, h.2.symm⟩, fun ⟨_, _, h1, h2⟩ => ⟨h1.symm, h2.symm⟩⟩
    · rename_i hq
      simp [hq]
  · rename_i hr
    simp [hr]

end Sys2Proof
end

