-- ==== Sys2Proof/Laws/Load.lean ====
section
/-! SUPPORT. The load's loop does not depend on its budget once that covers the words left. -/

namespace Sys2Proof

/-- Every decoded instruction has the width its row declares, 1 or 2. -/
theorem extract_width {ds : Descriptor} {i : Instr} {n : Nat} (h : extract ds = .decoded i n) :
    n = ds.width ∨ n = 1 := by
  unfold extract at h
  cases hk : ds.kind <;> simp only [hk] at h
  case ldd | std => exact .inr ((checkedDisp_decoded_iff _ _ _ _ _ _).1 h).2.2.2
  all_goals exact .inl (DecodeOutcome.decoded.inj h).2.symm

/-- A decode that answers an instruction advances by at least one word. -/
theorem decodeOne_width_pos {img : List Word} {off n : Nat} {i : Instr} (h : decodeOne img off = .decoded i n) :
    1 ≤ n := by
  unfold decodeOne at h
  repeat' split at h
  all_goals first
    | (rcases extract_width h with rfl | rfl <;> simp)
    | simp at h

/-- At the end of the image the outcome is `EndOfStream`. -/
theorem decodeOne_of_length_le {img : List Word} {off : Nat} (h : img.length ≤ off) :
    decodeOne img off = .endOfStream := by
  simp [decodeOne, nextWord, List.getElem?_eq_none h]

/-- One more decode in the budget changes nothing once the budget covers the words left. -/
theorem loadLoop_succ {img : List Word} {fuel off : Nat} (h : img.length - off ≤ fuel) :
    loadLoop (fuel + 1) img off = loadLoop fuel img off := by
  induction fuel generalizing off with
  | zero => simp [loadLoop, decodeOne_of_length_le (show img.length ≤ off by omega)]
  | succ fuel ih =>
    rw [loadLoop, loadLoop]
    cases hd : decodeOne img off with
    | decoded i n =>
      have hn := decodeOne_width_pos hd
      simp only [ih (show img.length - (off + n) ≤ fuel by omega)]
    | endOfStream => rfl
    | failure f => rfl

/-- Any budget that covers the words left gives the same load. -/
theorem loadLoop_of_enough {img : List Word} {fuel off : Nat} (h : img.length - off ≤ fuel) :
    loadLoop fuel img off = loadFrom img off := by
  induction fuel, h using Nat.le_induction with
  | base => rfl
  | succ k hk ih => rw [loadLoop_succ hk, ih]

end Sys2Proof
end

