-- ==== Sys2Proof/Laws/Memory.lean ====
section
/-! SUPPORT. The laws of one data space held as a list of cells: read after write, and the canonical form. -/

namespace Sys2Proof.Machine

@[simp] theorem Memory.read_nil (a : Nat) : Memory.read [] a = unlistedByte := rfl

theorem Memory.read_cons (k : Nat) (b : Byte) (m : Memory) (a : Nat) :
    Memory.read ((k, b) :: m) a = if k = a then b else Memory.read m a := rfl

theorem Memory.read_cell_append (m : Memory) (a x : Nat) (v : Byte) (hm : Memory.read m a = unlistedByte) :
    Memory.read (Memory.cell a v ++ m) x = if a = x then v else Memory.read m x := by
  by_cases hv : v = unlistedByte
  · by_cases hx : a = x
    · subst hx; simp [Memory.cell, hv, hm]
    · simp [Memory.cell, hv, hx]
  · simp [Memory.cell, hv, Memory.read_cons]

theorem Memory.risingFrom_cons (lo k : Nat) (b : Byte) (m : Memory) :
    Memory.risingFrom lo ((k, b) :: m) = true ↔
      lo ≤ k ∧ b ≠ unlistedByte ∧ Memory.risingFrom (k + 1) m = true := by
  simp [Memory.risingFrom, and_assoc]

theorem Memory.risingFrom_mono {lo lo' : Nat} {m : Memory} (h : Memory.risingFrom lo m = true) (hl : lo' ≤ lo) :
    Memory.risingFrom lo' m = true := by
  cases m with
  | nil => rfl
  | cons c m =>
    obtain ⟨k, b⟩ := c
    rw [Memory.risingFrom_cons] at h ⊢
    exact ⟨hl.trans h.1, h.2⟩

/-- Below its first address a space lists nothing. -/
theorem Memory.read_of_lt {lo a : Nat} {m : Memory} (h : Memory.risingFrom lo m = true) (ha : a < lo) :
    Memory.read m a = unlistedByte := by
  induction m generalizing lo with
  | nil => rfl
  | cons c m ih =>
    obtain ⟨k, b⟩ := c
    rw [Memory.risingFrom_cons] at h
    have hk : k ≠ a := by omega
    simp [Memory.read_cons, hk, ih h.2.2 (by omega)]

theorem Memory.read_write_from {lo : Nat} {m : Memory} (h : Memory.risingFrom lo m = true) (a x : Nat) (v : Byte) :
    Memory.read (m.write a v) x = if a = x then v else m.read x := by
  induction m generalizing lo with
  | nil =>
    have := Memory.read_cell_append [] a x v rfl
    simpa [Memory.write] using this
  | cons c m ih =>
    obtain ⟨k, b⟩ := c
    have h' := (Memory.risingFrom_cons _ _ _ _).1 h
    simp only [Memory.write]
    split
    · rename_i hak
      refine Memory.read_cell_append _ _ _ _ ?_
      have hk : k ≠ a := by omega
      simp [Memory.read_cons, hk, Memory.read_of_lt h'.2.2 (show a < k + 1 by omega)]
    · split
      · rename_i hak
        subst hak
        rw [Memory.read_cell_append _ _ _ _ (Memory.read_of_lt h'.2.2 (by omega))]
        by_cases hx : a = x <;> simp [Memory.read_cons, hx]
      · rename_i h1 h2
        rw [Memory.read_cons, Memory.read_cons, ih h'.2.2]
        by_cases hx : a = x
        · subst hx; simp [show k ≠ a by omega]
        · simp [hx]

/-- What a write does to every byte (R42): that byte holds the value, every other is as before. -/
theorem Memory.read_write {m : Memory} (h : m.wf = true) (a x : Nat) (v : Byte) :
    Memory.read (m.write a v) x = if a = x then v else m.read x := Memory.read_write_from h a x v

theorem Memory.risingFrom_cell_append {lo a : Nat} {m : Memory} (v : Byte) (hl : lo ≤ a)
    (h : Memory.risingFrom (a + 1) m = true) : Memory.risingFrom lo (Memory.cell a v ++ m) = true := by
  by_cases hv : v = unlistedByte
  · simpa [Memory.cell, hv] using Memory.risingFrom_mono h (by omega)
  · simpa [Memory.cell, hv, Memory.risingFrom_cons] using ⟨hl, h⟩

theorem Memory.risingFrom_write {lo : Nat} {m : Memory} (a : Nat) (v : Byte) (h : Memory.risingFrom lo m = true)
    (hl : lo ≤ a) : Memory.risingFrom lo (m.write a v) = true := by
  induction m generalizing lo with
  | nil => simpa [Memory.write] using Memory.risingFrom_cell_append (m := []) v hl rfl
  | cons c m ih =>
    obtain ⟨k, b⟩ := c
    have h' := (Memory.risingFrom_cons _ _ _ _).1 h
    simp only [Memory.write]
    split
    · rename_i hak
      exact Memory.risingFrom_cell_append v hl ((Memory.risingFrom_cons _ _ _ _).2 ⟨hak, h'.2⟩)
    · split
      · rename_i hak
        subst hak
        exact Memory.risingFrom_cell_append v hl h'.2.2
      · exact (Memory.risingFrom_cons _ _ _ _).2 ⟨h'.1, h'.2.1, ih h'.2.2 (by omega)⟩

/-- A write keeps the canonical form. -/
theorem Memory.wf_write {m : Memory} (h : m.wf = true) (a : Nat) (v : Byte) : (m.write a v).wf = true :=
  Memory.risingFrom_write a v h (Nat.zero_le a)

theorem Memory.below_cons (k : Nat) (b : Byte) (m : Memory) (n : Nat) :
    Memory.below ((k, b) :: m) n = true ↔ k < n ∧ Memory.below m n = true := by
  simp [Memory.below]

theorem Memory.below_cell_append {m : Memory} {a n : Nat} (v : Byte) (ha : a < n) (h : m.below n = true) :
    Memory.below (Memory.cell a v ++ m) n = true := by
  by_cases hv : v = unlistedByte
  · simpa [Memory.cell, hv] using h
  · simpa [Memory.cell, hv, Memory.below_cons] using ⟨ha, h⟩

/-- A write inside a space keeps its addresses inside it. -/
theorem Memory.below_write {m : Memory} {n a : Nat} (v : Byte) (h : m.below n = true) (ha : a < n) :
    (m.write a v).below n = true := by
  induction m with
  | nil => simpa [Memory.write] using Memory.below_cell_append (m := []) v ha rfl
  | cons c m ih =>
    obtain ⟨k, b⟩ := c
    have h' := (Memory.below_cons _ _ _ _).1 h
    simp only [Memory.write]
    split
    · exact Memory.below_cell_append v ha h
    · split
      · exact Memory.below_cell_append v ha h'.2
      · exact (Memory.below_cons _ _ _ _).2 ⟨h'.1, ih h'.2⟩

end Sys2Proof.Machine
end

