-- ==== Sys2Proof/Laws/State.lean ====
section
/-! SUPPORT. One lemma per field of State per update, so that no later proof unfolds a record update, and the
accessors after each update. -/

namespace Sys2Proof.Machine

/-! `State.setReg` -/

@[simp] theorem State.setReg_flags (s : State) (i : RegIdx) (v : Byte) : (s.setReg i v).flags = s.flags := rfl
@[simp] theorem State.setReg_sph (s : State) (i : RegIdx) (v : Byte) : (s.setReg i v).sph = s.sph := rfl
@[simp] theorem State.setReg_spl (s : State) (i : RegIdx) (v : Byte) : (s.setReg i v).spl = s.spl := rfl
@[simp] theorem State.setReg_pc (s : State) (i : RegIdx) (v : Byte) : (s.setReg i v).pc = s.pc := rfl
@[simp] theorem State.setReg_aliasSpace (s : State) (i : RegIdx) (v : Byte) : (s.setReg i v).aliasSpace = s.aliasSpace := rfl
@[simp] theorem State.setReg_io (s : State) (i : RegIdx) (v : Byte) : (s.setReg i v).io = s.io := rfl
@[simp] theorem State.setReg_extio (s : State) (i : RegIdx) (v : Byte) : (s.setReg i v).extio = s.extio := rfl
@[simp] theorem State.setReg_data (s : State) (i : RegIdx) (v : Byte) : (s.setReg i v).data = s.data := rfl
@[simp] theorem State.setReg_dmemSize (s : State) (i : RegIdx) (v : Byte) : (s.setReg i v).dmemSize = s.dmemSize := rfl
@[simp] theorem State.setReg_pm (s : State) (i : RegIdx) (v : Byte) : (s.setReg i v).pm = s.pm := rfl

/-! `State.setSp` -/

@[simp] theorem State.setSp_regs (s : State) (v : BitVec 16) : (s.setSp v).regs = s.regs := rfl
@[simp] theorem State.setSp_flags (s : State) (v : BitVec 16) : (s.setSp v).flags = s.flags := rfl
@[simp] theorem State.setSp_pc (s : State) (v : BitVec 16) : (s.setSp v).pc = s.pc := rfl
@[simp] theorem State.setSp_aliasSpace (s : State) (v : BitVec 16) : (s.setSp v).aliasSpace = s.aliasSpace := rfl
@[simp] theorem State.setSp_io (s : State) (v : BitVec 16) : (s.setSp v).io = s.io := rfl
@[simp] theorem State.setSp_extio (s : State) (v : BitVec 16) : (s.setSp v).extio = s.extio := rfl
@[simp] theorem State.setSp_data (s : State) (v : BitVec 16) : (s.setSp v).data = s.data := rfl
@[simp] theorem State.setSp_dmemSize (s : State) (v : BitVec 16) : (s.setSp v).dmemSize = s.dmemSize := rfl
@[simp] theorem State.setSp_pm (s : State) (v : BitVec 16) : (s.setSp v).pm = s.pm := rfl

/-! `State.setPc` -/

@[simp] theorem State.setPc_regs (s : State) (p : Pc) : (s.setPc p).regs = s.regs := rfl
@[simp] theorem State.setPc_flags (s : State) (p : Pc) : (s.setPc p).flags = s.flags := rfl
@[simp] theorem State.setPc_sph (s : State) (p : Pc) : (s.setPc p).sph = s.sph := rfl
@[simp] theorem State.setPc_spl (s : State) (p : Pc) : (s.setPc p).spl = s.spl := rfl
@[simp] theorem State.setPc_aliasSpace (s : State) (p : Pc) : (s.setPc p).aliasSpace = s.aliasSpace := rfl
@[simp] theorem State.setPc_io (s : State) (p : Pc) : (s.setPc p).io = s.io := rfl
@[simp] theorem State.setPc_extio (s : State) (p : Pc) : (s.setPc p).extio = s.extio := rfl
@[simp] theorem State.setPc_data (s : State) (p : Pc) : (s.setPc p).data = s.data := rfl
@[simp] theorem State.setPc_dmemSize (s : State) (p : Pc) : (s.setPc p).dmemSize = s.dmemSize := rfl
@[simp] theorem State.setPc_pm (s : State) (p : Pc) : (s.setPc p).pm = s.pm := rfl

/-! `State.setFlags` -/

@[simp] theorem State.setFlags_regs (s : State) (f : Flags) : (s.setFlags f).regs = s.regs := rfl
@[simp] theorem State.setFlags_sph (s : State) (f : Flags) : (s.setFlags f).sph = s.sph := rfl
@[simp] theorem State.setFlags_spl (s : State) (f : Flags) : (s.setFlags f).spl = s.spl := rfl
@[simp] theorem State.setFlags_pc (s : State) (f : Flags) : (s.setFlags f).pc = s.pc := rfl
@[simp] theorem State.setFlags_aliasSpace (s : State) (f : Flags) : (s.setFlags f).aliasSpace = s.aliasSpace := rfl
@[simp] theorem State.setFlags_io (s : State) (f : Flags) : (s.setFlags f).io = s.io := rfl
@[simp] theorem State.setFlags_extio (s : State) (f : Flags) : (s.setFlags f).extio = s.extio := rfl
@[simp] theorem State.setFlags_data (s : State) (f : Flags) : (s.setFlags f).data = s.data := rfl
@[simp] theorem State.setFlags_dmemSize (s : State) (f : Flags) : (s.setFlags f).dmemSize = s.dmemSize := rfl
@[simp] theorem State.setFlags_pm (s : State) (f : Flags) : (s.setFlags f).pm = s.pm := rfl

/-! `State.advance` -/

@[simp] theorem State.advance_regs (s : State) (w : Nat) : (s.advance w).regs = s.regs := rfl
@[simp] theorem State.advance_flags (s : State) (w : Nat) : (s.advance w).flags = s.flags := rfl
@[simp] theorem State.advance_sph (s : State) (w : Nat) : (s.advance w).sph = s.sph := rfl
@[simp] theorem State.advance_spl (s : State) (w : Nat) : (s.advance w).spl = s.spl := rfl
@[simp] theorem State.advance_aliasSpace (s : State) (w : Nat) : (s.advance w).aliasSpace = s.aliasSpace := rfl
@[simp] theorem State.advance_io (s : State) (w : Nat) : (s.advance w).io = s.io := rfl
@[simp] theorem State.advance_extio (s : State) (w : Nat) : (s.advance w).extio = s.extio := rfl
@[simp] theorem State.advance_data (s : State) (w : Nat) : (s.advance w).data = s.data := rfl
@[simp] theorem State.advance_dmemSize (s : State) (w : Nat) : (s.advance w).dmemSize = s.dmemSize := rfl
@[simp] theorem State.advance_pm (s : State) (w : Nat) : (s.advance w).pm = s.pm := rfl

/-! `State.decSp` -/

@[simp] theorem State.decSp_regs (s : State) : (s.decSp).regs = s.regs := rfl
@[simp] theorem State.decSp_flags (s : State) : (s.decSp).flags = s.flags := rfl
@[simp] theorem State.decSp_pc (s : State) : (s.decSp).pc = s.pc := rfl
@[simp] theorem State.decSp_aliasSpace (s : State) : (s.decSp).aliasSpace = s.aliasSpace := rfl
@[simp] theorem State.decSp_io (s : State) : (s.decSp).io = s.io := rfl
@[simp] theorem State.decSp_extio (s : State) : (s.decSp).extio = s.extio := rfl
@[simp] theorem State.decSp_data (s : State) : (s.decSp).data = s.data := rfl
@[simp] theorem State.decSp_dmemSize (s : State) : (s.decSp).dmemSize = s.dmemSize := rfl
@[simp] theorem State.decSp_pm (s : State) : (s.decSp).pm = s.pm := rfl

/-! `State.incSp` -/

@[simp] theorem State.incSp_regs (s : State) : (s.incSp).regs = s.regs := rfl
@[simp] theorem State.incSp_flags (s : State) : (s.incSp).flags = s.flags := rfl
@[simp] theorem State.incSp_pc (s : State) : (s.incSp).pc = s.pc := rfl
@[simp] theorem State.incSp_aliasSpace (s : State) : (s.incSp).aliasSpace = s.aliasSpace := rfl
@[simp] theorem State.incSp_io (s : State) : (s.incSp).io = s.io := rfl
@[simp] theorem State.incSp_extio (s : State) : (s.incSp).extio = s.extio := rfl
@[simp] theorem State.incSp_data (s : State) : (s.incSp).data = s.data := rfl
@[simp] theorem State.incSp_dmemSize (s : State) : (s.incSp).dmemSize = s.dmemSize := rfl
@[simp] theorem State.incSp_pm (s : State) : (s.incSp).pm = s.pm := rfl

/-! `State.setSpace` -/

@[simp] theorem State.setSpace_regs (s : State) (sp : Space) (m : Memory) : (s.setSpace sp m).regs = s.regs := by
  cases sp <;> rfl
@[simp] theorem State.setSpace_flags (s : State) (sp : Space) (m : Memory) : (s.setSpace sp m).flags = s.flags := by
  cases sp <;> rfl
@[simp] theorem State.setSpace_sph (s : State) (sp : Space) (m : Memory) : (s.setSpace sp m).sph = s.sph := by
  cases sp <;> rfl
@[simp] theorem State.setSpace_spl (s : State) (sp : Space) (m : Memory) : (s.setSpace sp m).spl = s.spl := by
  cases sp <;> rfl
@[simp] theorem State.setSpace_pc (s : State) (sp : Space) (m : Memory) : (s.setSpace sp m).pc = s.pc := by
  cases sp <;> rfl
@[simp] theorem State.setSpace_dmemSize (s : State) (sp : Space) (m : Memory) : (s.setSpace sp m).dmemSize = s.dmemSize := by
  cases sp <;> rfl
@[simp] theorem State.setSpace_pm (s : State) (sp : Space) (m : Memory) : (s.setSpace sp m).pm = s.pm := by
  cases sp <;> rfl

/-! The field each update writes. -/

@[simp] theorem State.setReg_regs (s : State) (i : RegIdx) (v : Byte) : (s.setReg i v).regs = s.regs.set i v := rfl
@[simp] theorem State.setSp_sph (s : State) (v : BitVec 16) : (s.setSp v).sph = v.extractLsb 15 8 := rfl
@[simp] theorem State.setSp_spl (s : State) (v : BitVec 16) : (s.setSp v).spl = v.extractLsb 7 0 := rfl
@[simp] theorem State.setPc_pc (s : State) (p : Pc) : (s.setPc p).pc = p := rfl
@[simp] theorem State.setFlags_flags (s : State) (f : Flags) : (s.setFlags f).flags = f := rfl
@[simp] theorem State.advance_pc (s : State) (w : Nat) : (s.advance w).pc = s.pcAfter w := rfl

/-! Accessors after an update. -/

/-- A register write is seen by that register and by no other (R10). -/
theorem State.reg_setReg (s : State) (i j : RegIdx) (v : Byte) :
    (s.setReg i v).reg j = if i = j then v else s.reg j := by
  simp [State.reg, State.setReg, Vector.getElem_set, Fin.ext_iff]

@[simp] theorem State.reg_setReg_self (s : State) (i : RegIdx) (v : Byte) : (s.setReg i v).reg i = v := by
  simp [State.reg_setReg]

theorem State.reg_congr (s t : State) (h : t.regs = s.regs) (i : RegIdx) : t.reg i = s.reg i := by
  simp [State.reg, h]

/-- Both halves written together read back as the value (R7, R14). -/
@[simp] theorem State.sp_setSp (s : State) (v : BitVec 16) : (s.setSp v).sp = v := by
  apply BitVec.eq_of_getLsbD_eq
  intro i hi
  simp only [State.sp, State.setSp, BitVec.getLsbD_append, BitVec.getLsbD_extractLsb]
  by_cases h : i < 8
  · simp [h]
  · simp [h, show i - 8 < 8 by omega, show 8 + (i - 8) = i by omega]

theorem State.sp_congr (s t : State) (hh : t.sph = s.sph) (hl : t.spl = s.spl) : t.sp = s.sp := by
  simp [State.sp, hh, hl]

/-- SP as a number (R14). -/
theorem State.sp_toNat (s : State) : s.sp.toNat = s.sph.toNat * 256 + s.spl.toNat := by
  have h := s.spl.isLt
  have e : s.sp.toNat = s.sph.toNat <<< 8 ||| s.spl.toNat := BitVec.toNat_append _ _
  rw [e, ← Nat.shiftLeft_add_eq_or_of_lt h, Nat.shiftLeft_eq]

@[simp] theorem State.sp_decSp (s : State) : s.decSp.sp = s.sp - 1 := by simp [State.decSp]

@[simp] theorem State.sp_incSp (s : State) : s.incSp.sp = s.sp + 1 := by simp [State.incSp]

/-- Replacing one space leaves the others (R20). -/
theorem State.space_setSpace (s : State) (sp sp' : Space) (m : Memory) :
    (s.setSpace sp m).space sp' = if sp = sp' then m else s.space sp' := by
  cases sp <;> cases sp' <;> rfl

@[simp] theorem State.space_setSpace_self (s : State) (sp : Space) (m : Memory) : (s.setSpace sp m).space sp = m := by
  cases sp <;> rfl

@[simp] theorem State.spaceSize_setSpace (s : State) (sp sp' : Space) (m : Memory) :
    (s.setSpace sp m).spaceSize sp' = s.spaceSize sp' := by
  cases sp <;> cases sp' <;> rfl

@[simp] theorem State.sp_setSpace (s : State) (sp : Space) (m : Memory) : (s.setSpace sp m).sp = s.sp := by
  simp [State.sp]

@[simp] theorem State.space_setReg (s : State) (i : RegIdx) (v : Byte) (sp : Space) : (s.setReg i v).space sp = s.space sp := by
  cases sp <;> rfl
@[simp] theorem State.spaceSize_setReg (s : State) (i : RegIdx) (v : Byte) (sp : Space) : (s.setReg i v).spaceSize sp = s.spaceSize sp := by
  cases sp <;> rfl
@[simp] theorem State.space_setSp (s : State) (v : BitVec 16) (sp : Space) : (s.setSp v).space sp = s.space sp := by
  cases sp <;> rfl
@[simp] theorem State.spaceSize_setSp (s : State) (v : BitVec 16) (sp : Space) : (s.setSp v).spaceSize sp = s.spaceSize sp := by
  cases sp <;> rfl
@[simp] theorem State.space_setPc (s : State) (p : Pc) (sp : Space) : (s.setPc p).space sp = s.space sp := by
  cases sp <;> rfl
@[simp] theorem State.spaceSize_setPc (s : State) (p : Pc) (sp : Space) : (s.setPc p).spaceSize sp = s.spaceSize sp := by
  cases sp <;> rfl
@[simp] theorem State.space_setFlags (s : State) (f : Flags) (sp : Space) : (s.setFlags f).space sp = s.space sp := by
  cases sp <;> rfl
@[simp] theorem State.spaceSize_setFlags (s : State) (f : Flags) (sp : Space) : (s.setFlags f).spaceSize sp = s.spaceSize sp := by
  cases sp <;> rfl
@[simp] theorem State.space_advance (s : State) (w : Nat) (sp : Space) : (s.advance w).space sp = s.space sp := by
  cases sp <;> rfl
@[simp] theorem State.spaceSize_advance (s : State) (w : Nat) (sp : Space) : (s.advance w).spaceSize sp = s.spaceSize sp := by
  cases sp <;> rfl
@[simp] theorem State.space_decSp (s : State) (sp : Space) : (s.decSp).space sp = s.space sp := by
  cases sp <;> rfl
@[simp] theorem State.spaceSize_decSp (s : State) (sp : Space) : (s.decSp).spaceSize sp = s.spaceSize sp := by
  cases sp <;> rfl
@[simp] theorem State.space_incSp (s : State) (sp : Space) : (s.incSp).space sp = s.space sp := by
  cases sp <;> rfl
@[simp] theorem State.spaceSize_incSp (s : State) (sp : Space) : (s.incSp).spaceSize sp = s.spaceSize sp := by
  cases sp <;> rfl

end Sys2Proof.Machine
end

