-- ==== Sys2Proof/Laws/Ops.lean ====
section
/-! SUPPORT. What each shared operation can do, said once: the memory primitives, the pushes, Program Memory's
lookup, and raising a fatal condition. -/

namespace Sys2Proof.Machine

/-- A write succeeds exactly inside the space, and then changes that one space. -/
theorem memWrite_ok_iff (sp : Space) (addr : Nat) (v : Byte) (s t : State) :
    memWrite sp addr v s = .ok t ↔
      addr < s.spaceSize sp ∧ t = s.setSpace sp ((s.space sp).write addr v) := by
  unfold memWrite
  split
  · simp only [reduceCtorEq, false_iff]; omega
  · simp only [Except.ok.injEq]
    exact ⟨fun h => ⟨by omega, h.symm⟩, fun h => h.2.symm⟩

/-- A write raises exactly outside the space, and then records the address. -/
theorem memWrite_error_iff (sp : Space) (addr : Nat) (v : Byte) (s : State) (f : Fault) :
    memWrite sp addr v s = .error f ↔ s.spaceSize sp ≤ addr ∧ f = .dataAddress addr := by
  unfold memWrite
  split
  · simp [*, eq_comm]
  · simp [*]

/-- A successful write keeps every space canonical. -/
theorem memWrite_keeps_wf {sp : Space} {addr : Nat} {v : Byte} {s t : State} (h : memWrite sp addr v s = .ok t)
    (hs : ∀ x, (s.space x).wf = true) (x : Space) : (t.space x).wf = true := by
  obtain ⟨-, rfl⟩ := (memWrite_ok_iff _ _ _ _ _).1 h
  rw [State.space_setSpace]
  split
  · exact Memory.wf_write (hs sp) _ _
  · exact hs x

/-- A successful write keeps every space inside its size. -/
theorem memWrite_keeps_below {sp : Space} {addr : Nat} {v : Byte} {s t : State} (h : memWrite sp addr v s = .ok t)
    (hs : ∀ x, (s.space x).below (s.spaceSize x) = true) (x : Space) : (t.space x).below (t.spaceSize x) = true := by
  obtain ⟨ha, rfl⟩ := (memWrite_ok_iff _ _ _ _ _).1 h
  rw [State.space_setSpace, State.spaceSize_setSpace]
  split
  · rename_i hx; subst hx; exact Memory.below_write v (hs sp) ha
  · exact hs x

/-- Two decrements with a store between them move SP by two. -/
theorem State.decSp_setSpace_decSp (s : State) (m : Memory) :
    (s.decSp.setSpace .data m).decSp = (s.setSpace .data m).setSp (s.sp - 1 - 1) := by
  rw [State.decSp, State.sp_setSpace, State.sp_decSp]
  rfl

/-- One push succeeds exactly when SP is inside DATA. -/
theorem pushByte_ok_iff (v : Byte) (s t : State) :
    pushByte v s = .ok t ↔
      s.sp.toNat < s.dmemSize ∧ t = (s.setSpace .data (s.data.write s.sp.toNat v)).decSp := by
  unfold pushByte pushAddress
  cases h : memWrite .data s.sp.toNat v s with
  | error f =>
    have := ((memWrite_error_iff _ _ _ _ _).1 h).1
    simp only [State.spaceSize] at this
    simp only [reduceCtorEq, false_iff]; omega
  | ok u =>
    obtain ⟨hu, rfl⟩ := (memWrite_ok_iff _ _ _ _ _).1 h
    simp only [State.spaceSize] at hu
    simp only [Except.ok.injEq, hu, true_and, State.space]
    exact eq_comm

/-- One push raises exactly when SP is outside DATA. -/
theorem pushByte_error_iff (v : Byte) (s : State) (f : Fault) :
    pushByte v s = .error f ↔ s.dmemSize ≤ s.sp.toNat ∧ f = .dataAddress s.sp.toNat := by
  unfold pushByte pushAddress
  cases h : memWrite .data s.sp.toNat v s with
  | error g =>
    have := (memWrite_error_iff _ _ _ _ _).1 h
    simp only [State.spaceSize] at this
    simp [this.1, this.2, eq_comm]
  | ok u =>
    have := ((memWrite_ok_iff _ _ _ _ _).1 h).1
    simp only [State.spaceSize] at this
    simp only [reduceCtorEq, false_iff]; omega

/-- The two-byte push succeeds exactly when both addresses are inside DATA, and then does R121's sequence. -/
theorem pushWord_ok_iff (v : BitVec 16) (s t : State) :
    pushWord v s = .ok t ↔
      s.sp.toNat < s.dmemSize ∧ (s.sp - 1).toNat < s.dmemSize ∧
        t = ((s.setSpace .data ((s.data.write s.sp.toNat (v.extractLsb 7 0)).write (s.sp - 1).toNat
              (v.extractLsb 15 8))).setSp (s.sp - 1 - 1)) := by
  unfold pushWord
  cases h : pushByte (v.extractLsb 7 0) s with
  | error f =>
    have := ((pushByte_error_iff _ _ _).1 h).1
    simp only [reduceCtorEq, false_iff]; omega
  | ok u =>
    obtain ⟨hu, rfl⟩ := (pushByte_ok_iff _ _ _).1 h
    simp only [pushByte_ok_iff, hu, true_and]
    simp only [State.sp_decSp, State.sp_setSpace, State.decSp_dmemSize, State.setSpace_dmemSize]
    rw [State.decSp_setSpace_decSp]
    rfl

/-- The two-byte push raises for the first address if that is outside DATA, else for the second (R159). -/
theorem pushWord_error_iff (v : BitVec 16) (s : State) (f : Fault) :
    pushWord v s = .error f ↔
      (s.dmemSize ≤ s.sp.toNat ∧ f = .dataAddress s.sp.toNat) ∨
      (s.sp.toNat < s.dmemSize ∧ s.dmemSize ≤ (s.sp - 1).toNat ∧ f = .dataAddress (s.sp - 1).toNat) := by
  unfold pushWord
  cases h : pushByte (v.extractLsb 7 0) s with
  | error g =>
    obtain ⟨hg, rfl⟩ := (pushByte_error_iff _ _ _).1 h
    simp only [Except.error.injEq, hg, true_and]
    constructor
    · rintro rfl; exact .inl rfl
    · rintro (h | h)
      · exact h.symm
      · omega
  | ok u =>
    obtain ⟨hu, rfl⟩ := (pushByte_ok_iff _ _ _).1 h
    simp only [pushByte_error_iff, hu, true_and, State.sp_decSp, State.sp_setSpace, State.decSp_dmemSize,
      State.setSpace_dmemSize]
    constructor
    · exact .inr
    · rintro (h | h)
      · omega
      · exact h

/-- The outcome of an operation that may raise. -/
@[simp] theorem finish_ok (s : State) : finish (.ok s) = .next s := rfl
@[simp] theorem finish_error (f : Fault) : finish (.error f) = .fault f := rfl

theorem finish_next_iff (r : Except Fault State) (t : State) : finish r = .next t ↔ r = .ok t := by
  cases r <;> simp

theorem finish_fault_iff (r : Except Fault State) (f : Fault) : finish r = .fault f ↔ r = .error f := by
  cases r <;> simp

/-! Program Memory. -/

theorem ProgramMemory.lookup_width {p : ProgramMemory} {a n : Nat} {i : Instr} (h : p.lookup a = some (i, n)) :
    n = i.width := by
  induction p with
  | nil => simp [ProgramMemory.lookup] at h
  | cons e p ih =>
    obtain ⟨k, j⟩ := e
    simp only [ProgramMemory.lookup] at h
    split at h
    · simp only [Option.some.injEq, Prod.mk.injEq] at h; rw [← h.1, h.2]
    · exact ih h

/-- What the canonical form says of an entry that a lookup finds. -/
theorem ProgramMemory.lookup_of_risingFrom {p : ProgramMemory} {lo a n : Nat} {i : Instr}
    (hp : ProgramMemory.risingFrom lo p = true) (h : p.lookup a = some (i, n)) :
    lo ≤ a ∧ a % 2 = 0 ∧ a < 2 ^ 23 ∧ i.wellFormed = true := by
  induction p generalizing lo with
  | nil => simp [ProgramMemory.lookup] at h
  | cons e p ih =>
    obtain ⟨k, j⟩ := e
    simp only [ProgramMemory.risingFrom, Bool.and_eq_true, decide_eq_true_eq] at hp
    simp only [ProgramMemory.lookup] at h
    split at h
    · rename_i hk
      simp only [Option.some.injEq, Prod.mk.injEq] at h
      subst hk
      rw [← h.1]
      exact ⟨hp.1.1.1.1, hp.1.1.1.2, hp.1.1.2, hp.1.2⟩
    · have := ih hp.2 h
      exact ⟨by omega, this.2⟩

theorem ProgramMemory.lookup_insert_self (p : ProgramMemory) (a : Nat) (i : Instr) :
    (p.insert a i).lookup a = some (i, i.width) := by
  induction p with
  | nil => simp [ProgramMemory.insert, ProgramMemory.lookup]
  | cons e p ih =>
    obtain ⟨k, j⟩ := e
    simp only [ProgramMemory.insert]
    split
    · simp [ProgramMemory.lookup]
    · split
      · simp [ProgramMemory.lookup]
      · simp [ProgramMemory.lookup, ih, show k ≠ a by omega]

theorem ProgramMemory.lookup_erase_self (p : ProgramMemory) (a : Nat) : (p.erase a).lookup a = none := by
  induction p with
  | nil => rfl
  | cons e p ih =>
    obtain ⟨k, j⟩ := e
    by_cases hk : k = a
    · simpa [ProgramMemory.erase, hk] using ih
    · simpa [ProgramMemory.erase, ProgramMemory.lookup, hk] using ih

end Sys2Proof.Machine
end

