-- ==== Sys2Proof/Laws/PerInstr.lean ====
section
/-! SUPPORT. Families of statements about every constructor of Instr as syntax, one lemma per constructor. -/

namespace Sys2Proof.Laws

/-! The encoder gives as many words as the kind is wide (spec/10_state.md R22, spec/30_encoding.md R50, R56). -/

/-- The encoding of an instruction has its width in words. -/
def EncodedWidth.Statement (i : Instr) : Prop := (encode i).length = i.width

theorem EncodedWidth.ret : EncodedWidth.Statement .ret := rfl
theorem EncodedWidth.cli : EncodedWidth.Statement .cli := rfl
theorem EncodedWidth.push (r : RegIdx) : EncodedWidth.Statement (.push r) := rfl
theorem EncodedWidth.pop (d : RegIdx) : EncodedWidth.Statement (.pop d) := rfl
theorem EncodedWidth.jmp (target : Pc) : EncodedWidth.Statement (.jmp target) := rfl
theorem EncodedWidth.call (target : Pc) : EncodedWidth.Statement (.call target) := rfl
theorem EncodedWidth.add (d r : RegIdx) : EncodedWidth.Statement (.add d r) := rfl
theorem EncodedWidth.adc (d r : RegIdx) : EncodedWidth.Statement (.adc d r) := rfl
theorem EncodedWidth.eor (d r : RegIdx) : EncodedWidth.Statement (.eor d r) := rfl
theorem EncodedWidth.ldi (d : RegIdx) (k : Byte) : EncodedWidth.Statement (.ldi d k) := rfl
theorem EncodedWidth.inp (d : RegIdx) (a : IoAddr) : EncodedWidth.Statement (.inp d a) := rfl
theorem EncodedWidth.out (a : IoAddr) (r : RegIdx) : EncodedWidth.Statement (.out a r) := rfl
theorem EncodedWidth.rjmp (disp : Int) : EncodedWidth.Statement (.rjmp disp) := rfl
theorem EncodedWidth.rcall (disp : Int) : EncodedWidth.Statement (.rcall disp) := rfl
theorem EncodedWidth.ldd (d : RegIdx) (ptr : Ptr) (q : Disp6) : EncodedWidth.Statement (.ldd d ptr q) := by
  cases ptr <;> rfl
theorem EncodedWidth.std (ptr : Ptr) (q : Disp6) (r : RegIdx) : EncodedWidth.Statement (.std ptr q r) := by
  cases ptr <;> rfl
theorem EncodedWidth.terminator : EncodedWidth.Statement .terminator := rfl

end Sys2Proof.Laws
end

