-- ==== Sys2Proof/Laws/Step.lean ====
section
/-! SUPPORT. Everything a meaning and a step can do, said once. -/

namespace Sys2Proof.Machine

/-- The state after a CALL whose two stores are inside DATA. -/
def calledState (target : Pc) (s : State) : State :=
  ((s.setSpace .data ((s.data.write s.sp.toNat ((returnAddress s).extractLsb 7 0)).write (s.sp - 1).toNat
    ((returnAddress s).extractLsb 15 8))).setSp (s.sp - 1 - 1)).setPc target

/-- The state after an OUT. -/
def outState (a : IoAddr) (r : RegIdx) (s : State) : State :=
  (s.setSpace .io (s.io.write a.val (s.reg r))).advance 1

theorem execOut_eq (a : IoAddr) (r : RegIdx) (s : State) : execOut a r s = .next (outState a r s) := by
  have h : memWrite .io (ioIndex a) (s.reg r) s = .ok (s.setSpace .io (s.io.write a.val (s.reg r))) :=
    (memWrite_ok_iff _ _ _ _ _).2 ⟨a.isLt, rfl⟩
  rw [execOut, h]
  rfl

/-- Every byte after an OUT: the stored I/O byte holds the register, every other is as before. -/
theorem outState_byteAt {s : State} (h : s.io.wf = true) (a : IoAddr) (r : RegIdx) (sp : Space) (x : Nat) :
    (outState a r s).byteAt sp x = if sp = .io ∧ x = ioIndex a then s.reg r else s.byteAt sp x := by
  cases sp with
  | io =>
    have e : (outState a r s).byteAt .io x = Memory.read (s.io.write a.val (s.reg r)) x := rfl
    rw [e, Memory.read_write h]
    simp only [true_and, ioIndex, eq_comm]
    rfl
  | regAlias | extio | data => rw [if_neg (by simp)]; rfl

/-- Every byte after a CALL: the pushed bytes hold the return address, the byte one below the first its high part,
and every other is as before. -/
theorem calledState_byteAt {s : State} (h : s.data.wf = true) (target : Pc) (sp : Space) (x : Nat) :
    (calledState target s).byteAt sp x =
      if sp = .data ∧ x = (s.sp - 1).toNat then (returnAddress s).extractLsb 15 8
      else if sp = .data ∧ x = pushAddress s then (returnAddress s).extractLsb 7 0 else s.byteAt sp x := by
  cases sp with
  | data =>
    have e : (calledState target s).byteAt .data x =
        Memory.read ((s.data.write s.sp.toNat ((returnAddress s).extractLsb 7 0)).write (s.sp - 1).toNat
          ((returnAddress s).extractLsb 15 8)) x := rfl
    rw [e, Memory.read_write (Memory.wf_write h _ _), Memory.read_write h]
    simp only [true_and, pushAddress, eq_comm]
    rfl
  | regAlias | io | extio => rw [if_neg (by simp), if_neg (by simp)]; rfl

theorem execCall_next_iff (target : Pc) (s t : State) :
    execCall target s = .next t ↔
      s.sp.toNat < s.dmemSize ∧ (s.sp - 1).toNat < s.dmemSize ∧ t = calledState target s := by
  unfold execCall
  rw [finish_next_iff]
  cases h : pushWord (returnAddress s) s with
  | error f =>
    have := (pushWord_error_iff _ _ _).1 h
    simp only [Except.map, reduceCtorEq, false_iff]
    rintro ⟨h1, h2, -⟩
    omega
  | ok u =>
    obtain ⟨h1, h2, rfl⟩ := (pushWord_ok_iff _ _ _).1 h
    simp only [Except.map, Except.ok.injEq, h1, h2, true_and]
    exact eq_comm

theorem execCall_fault_iff (target : Pc) (s : State) (f : Fault) :
    execCall target s = .fault f ↔
      (s.dmemSize ≤ s.sp.toNat ∧ f = .dataAddress s.sp.toNat) ∨
      (s.sp.toNat < s.dmemSize ∧ s.dmemSize ≤ (s.sp - 1).toNat ∧ f = .dataAddress (s.sp - 1).toNat) := by
  unfold execCall
  rw [finish_fault_iff, ← pushWord_error_iff (returnAddress s)]
  cases pushWord (returnAddress s) s <;> simp [Except.map]

theorem execCall_not_refused (target : Pc) (s : State) (r : Refusal) : execCall target s ≠ .refused r := by
  unfold execCall
  cases pushWord (returnAddress s) s <;> simp [Except.map]

/-- Everything an instruction that answers a next state can have done: it is one of the five executed kinds. -/
theorem exec_next_cases {i : Instr} {s t : State} (h : exec i s = .next t) :
    (∃ d r, i = .eor d r ∧ t = (s.setReg d (s.reg d ^^^ s.reg r)).advance 1) ∨
    (∃ d k, i = .ldi d k ∧ t = (s.setReg d k).advance 1) ∨
    (∃ a r, i = .out a r ∧ t = outState a r s) ∨
    (∃ target, i = .jmp target ∧ t = s.setPc target) ∨
    (∃ target, i = .call target ∧ s.sp.toNat < s.dmemSize ∧ (s.sp - 1).toNat < s.dmemSize ∧
      t = calledState target s) := by
  cases i with
  | eor d r =>
    refine .inl ⟨d, r, rfl, ?_⟩
    exact ((Host.Outcome.next.injEq _ _).mp h).symm
  | ldi d k => exact .inr (.inl ⟨d, k, rfl, ((Host.Outcome.next.injEq _ _).mp h).symm⟩)
  | out a r =>
    refine .inr (.inr (.inl ⟨a, r, rfl, ?_⟩))
    have h' : execOut a r s = .next t := h
    rw [execOut_eq] at h'
    exact ((Host.Outcome.next.injEq _ _).mp h').symm
  | jmp target => exact .inr (.inr (.inr (.inl ⟨target, rfl, ((Host.Outcome.next.injEq _ _).mp h).symm⟩)))
  | call target => exact .inr (.inr (.inr (.inr ⟨target, rfl, (execCall_next_iff _ _ _).1 h⟩)))
  | ret | cli => cases h
  | push | pop | rjmp | rcall => cases h
  | add | adc | inp => cases h
  | ldd | std => cases h
  | terminator => cases h

/-- A step that answers a next state found an entry at `pc` and ran it. -/
theorem step_next_iff {s t : State} : step s = .next t ↔ ∃ i n, fetch s = some (i, n) ∧ exec i s = .next t := by
  unfold step
  cases h : fetch s with
  | none => simp [raiseFatal]
  | some e => obtain ⟨i, n⟩ := e; simp

/-- A step at an address without an entry. -/
theorem step_of_miss {s : State} (h : fetch s = none) : step s = .fault (.unmappedPC s.pc) := by
  simp [step, h, raiseFatal]

/-- A step at an address with an entry. -/
theorem step_of_hit {s : State} {i : Instr} {n : Nat} (h : fetch s = some (i, n)) : step s = exec i s := by
  simp [step, h]

end Sys2Proof.Machine
end

