-- ==== Sys2Proof/Tests/Slice0.lean ====
section
/-! SUPPORT. Tests whose expected results are the spec's worked examples and vectors (spec/95_test_vectors.md), the
smoke tests of WellFormed, and for each statement with hypotheses a state and operands that meet them. -/

namespace Sys2Proof.Tests

open Sys2Proof.Machine

/-! Helpers. -/

/-- A constructed state with one instruction placed at `pc`. -/
def at1 (size : Nat) (sp : BitVec 16) (pc : Pc) (i : Instr) : State :=
  { (State.constructed size).setSp sp with pc := pc, pm := [(pc.toNat, i)] }

/-- What a test looks at of the next state. -/
def after (o : Host.Outcome State Fault Refusal) : Option State :=
  match o with
  | .next s => some s
  | .fault _ => none
  | .refused _ => none

/-- The fault of an outcome. -/
def faultOf (o : Host.Outcome State Fault Refusal) : Option Fault :=
  match o with
  | .next _ => none
  | .fault f => some f
  | .refused _ => none

/-- A byte of DATA, SP and `pc` of the next state. -/
def dataSpPc (o : Host.Outcome State Fault Refusal) (a b : Nat) : Option (Byte × Byte × BitVec 16 × Pc) :=
  (after o).map (fun t => (t.byteAt .data a, t.byteAt .data b, t.sp, t.pc))

/-! WellFormed: each check refuses an ill-formed term (R22), and accepts its boundary. -/

theorem test_ldi_below_16_refused : (Instr.ldi 15 0).wellFormed = false ∧ (Instr.ldi 16 0).wellFormed = true := by decide
theorem test_odd_jmp_target_refused : (Instr.jmp 7).wellFormed = false ∧ (Instr.jmp 0x7FFFFE).wellFormed = true := by decide
theorem test_odd_call_target_refused : (Instr.call 1).wellFormed = false ∧ (Instr.call 0).wellFormed = true := by decide
theorem test_odd_disp_refused : (Instr.rjmp 3).wellFormed = false ∧ (Instr.rcall (-3)).wellFormed = false := by decide
theorem test_disp_above_range_refused :
    (Instr.rjmp 4096).wellFormed = false ∧ (Instr.rcall 4096).wellFormed = false ∧ (Instr.rjmp 4094).wellFormed = true := by decide
theorem test_disp_below_range_refused :
    (Instr.rjmp (-4098)).wellFormed = false ∧ (Instr.rcall (-4098)).wellFormed = false ∧ (Instr.rcall (-4096)).wellFormed = true := by decide
theorem test_terminator_refused : Instr.terminator.wellFormed = false := by decide

/-! Decoding: words written out from the patterns of R54, values from spec/95_test_vectors.md sections
1 to 3. -/

/-- `1001 0101 0000 1000` -/
theorem test_decode_ret : decodeOne [0b1001010100001000] 0 = .decoded .ret 1 := by decide
/-- `1001 0100 1111 1000` -/
theorem test_decode_cli : decodeOne [0b1001010011111000] 0 = .decoded .cli 1 := by decide
/-- `1001 001r rrrr 1111`, r = 1 -/
theorem test_decode_push : decodeOne [0b1001001000011111] 0 = .decoded (.push 1) 1 := by decide
/-- `1001 000d dddd 1111`, d = 10 -/
theorem test_decode_pop : decodeOne [0b1001000010101111] 0 = .decoded (.pop 10) 1 := by decide
/-- `1001 010k kkkk 110k`, upper bits zero but bit 0: word address 0x10000 -/
theorem test_decode_jmp : decodeOne [0b1001010000001101, 0x0000] 0 = .decoded (.jmp 0x020000) 2 := by decide
/-- `1001 010k kkkk 111k`, 0x95EE 0xABCD: k22 = 0x3CABCD -/
theorem test_decode_call : decodeOne [0b1001010111101110, 0xABCD] 0 = .decoded (.call 0x79579A) 2 := by decide
/-- `0000 11rd dddd rrrr`, 0x0DF0 -/
theorem test_decode_add : decodeOne [0b0000110111110000] 0 = .decoded (.add 31 0) 1 := by decide
/-- `0001 11rd dddd rrrr`, 0x1E0F -/
theorem test_decode_adc : decodeOne [0b0001111000001111] 0 = .decoded (.adc 0 31) 1 := by decide
/-- `0010 01rd dddd rrrr`, 0x2712 -/
theorem test_decode_eor : decodeOne [0b0010011100010010] 0 = .decoded (.eor 17 18) 1 := by decide
/-- `1110 KKKK dddd KKKK`, 0xEA5C -/
theorem test_decode_ldi : decodeOne [0b1110101001011100] 0 = .decoded (.ldi 21 0xAC) 1 := by decide
/-- `1011 0AAd dddd AAAA`, 0xB67F -/
theorem test_decode_in : decodeOne [0b1011011001111111] 0 = .decoded (.inp 7 0x3F) 1 := by decide
/-- `1011 1AAr rrrr AAAA`, 0xBF1F -/
theorem test_decode_out : decodeOne [0b1011111100011111] 0 = .decoded (.out 0x3F 17) 1 := by decide
/-- `1100 kkkk kkkk kkkk`, fields 0xFFF and 0x800 -/
theorem test_decode_rjmp :
    decodeOne [0b1100111111111111] 0 = .decoded (.rjmp (-2)) 1 ∧ decodeOne [0xC800] 0 = .decoded (.rjmp (-4096)) 1 := by decide
/-- `1101 kkkk kkkk kkkk`, fields 0x7FF and 0x002 -/
theorem test_decode_rcall :
    decodeOne [0b1101011111111111] 0 = .decoded (.rcall 4094) 1 ∧ decodeOne [0xD002] 0 = .decoded (.rcall 4) 1 := by decide
/-- `10q0 qq0d dddd 1qqq`, 0xA45A, and the `Z` row, 0x8C00 -/
theorem test_decode_ldd :
    decodeOne [0b1010010001011010] 0 = .decoded (.ldd 5 .Y 42) 1 ∧ decodeOne [0x8C00] 0 = .decoded (.ldd 0 .Z 24) 1 := by decide
/-- `10q0 qq1r rrrr 0qqq`, 0xAFF7, and the `Y` row, 0x8208 -/
theorem test_decode_std :
    decodeOne [0b1010111111110111] 0 = .decoded (.std .Z 63 31) 1 ∧ decodeOne [0x8208] 0 = .decoded (.std .Y 0 0) 1 := by decide
/-- section 2.1: the terminator, the nearest word to it, lookahead running out, a zero second word -/
theorem test_decode_terminator :
    decodeOne [0x0000] 0 = .endOfStream ∧ decodeOne [] 0 = .endOfStream ∧ decodeOne [0x940C] 0 = .endOfStream ∧
      decodeOne [0x0001] 0 = .failure (.unmatched 0x0001) ∧ decodeOne [0x940C, 0x0000] 0 = .decoded (.jmp 0) 2 := by decide
/-- section 2.1: neighbours of accepted words -/
theorem test_decode_illegal_neighbours :
    ([0x0800, 0x1000, 0x2000, 0x2800, 0x3000, 0x9000, 0x9200, 0x900E, 0x920E, 0x9408, 0x9478, 0x9488, 0x9509, 0x9518,
      0x9588, 0x9598, 0x95A8, 0x9409, 0x940A, 0x9C00, 0xF000, 0x2C00, 0xFFFF] : List Word).all
        (fun w => decodeOne [w, 0] 0 == .failure (.unmatched w)) = true := by decide
/-- S4: the range check on its own -/
theorem test_range_check :
    checkedDisp 0 32 0 (fun r q => .ldd r .Y q) = .failure (.fieldRange 0 .register 32) ∧
      checkedDisp 0 0 64 (fun r q => .std .Z q r) = .failure (.fieldRange 0 .q 64) ∧
      decodeOne [0xADFF] 0 = .decoded (.ldd 31 .Y 63) 1 := by decide
/-- the encoder against words of section 2 -/
theorem test_encode :
    encode (.ldd 5 .Y 42) = [0xA45A] ∧ encode (.call 0x79579A) = [0x95EE, 0xABCD] ∧ encode (.rjmp (-4)) = [0xCFFE] ∧
      encode (.out 0x1F 31) = [0xBBFF] ∧ encode (.ldi 16 0x3C) = [0xE30C] ∧ encode (.eor 2 17) = [0x2621] := by decide
theorem test_table_words :
    decodeTableWord 32 0x0003940C = some (.jmp 6) ∧ decodeTableWord 16 0x940C = some (.jmp 0) ∧
      decodeTableWord 16 0 = some .terminator ∧ decodeTableWord 16 0x2D01 = none := by decide

/-! Execution: spec/95_test_vectors.md sections 2.3 to 2.8. -/

/-- `EOR R17, R18` with 0xAA, 0x0F at `pc = 4` -/
theorem test_eor : (after (step (((at1 2048 0 4 (.eor 17 18)).setReg 17 0xAA).setReg 18 0x0F))).map
    (fun t => (t.reg 17, t.reg 18, t.pc)) = some (0xA5, 0x0F, 6) := by decide
/-- `EOR R31, R0` at the top of the address space: `pc` wraps -/
theorem test_eor_pc_wraps : (after (step (((at1 2048 0 0x7FFFFE (.eor 31 0)).setReg 31 0x0F).setReg 0 0xFF))).map
    (fun t => (t.reg 31, t.pc)) = some (0xF0, 0) := by decide
/-- `LDI R16, 0x00` with R16 = 0x77 at `pc = 6` -/
theorem test_ldi : (after (step ((at1 2048 0 6 (.ldi 16 0)).setReg 16 0x77))).map
    (fun t => (t.reg 16, t.pc)) = some (0, 8) := by decide
/-- `OUT 0x3D, R16`: the I/O byte, and SP is not it -/
theorem test_out_does_not_reach_sp : (after (step ((at1 2048 0 0 (.out 0x3D 16)).setReg 16 0xFF))).map
    (fun t => (t.byteAt .io 0x3D, t.sp, t.pc)) = some (0xFF, 0, 2) := by decide
/-- `OUT 0x3F, R31`: no SREG mapping -/
theorem test_out_does_not_reach_flags : (after (step ((at1 2048 0 0 (.out 0x3F 31)).setReg 31 0x80))).map
    (fun t => (t.byteAt .io 0x3F, t.flags)) = some (0x80, (State.constructed 2048).flags) := by decide
theorem test_jmp : (after (step (at1 2048 0 0 (.jmp 6)))).map (fun t => t.pc) = some 6 := by decide
/-- S5: from SP = 0xFFFF, `pc = 0x1230` -/
theorem test_call_stack_protocol :
    dataSpPc (step (at1 65536 0xFFFF 0x1230 (.call 0x2468))) 0xFFFF 0xFFFE = some (0x34, 0x12, 0xFFFD, 0x2468) := by decide
/-- section 2.5: the borrow across the halves -/
theorem test_call_borrow :
    dataSpPc (step (at1 2048 0x0100 0x0100 (.call 0))) 0x0100 0x00FF = some (0x04, 0x01, 0x00FE, 0) := by decide
/-- section 2.5: bit 16 of the return address is lost -/
theorem test_call_high_return_bits_lost :
    dataSpPc (step (at1 2048 0x07FF 0x012FFC (.call 0x2468))) 0x07FF 0x07FE = some (0x00, 0x30, 0x07FD, 0x2468) := by decide
/-- section 2.5: the three rows at the ends of DATA -/
theorem test_call_bounds :
    faultOf (step (at1 2048 0 0 (.call 4))) = some (.dataAddress 0xFFFF) ∧
      faultOf (step (at1 2048 0x0800 0 (.call 4))) = some (.dataAddress 0x0800) ∧
      dataSpPc (step (at1 65536 0 0 (.call 4))) 0 0xFFFF = some (0x04, 0x00, 0xFFFE, 4) := by decide
/-- S7, and the other decode-only kinds -/
theorem test_decode_only_kinds :
    ([.ret, .cli, .push 1, .pop 10, .add 0 1, .adc 0 1, .inp 0 0, .rjmp (-2), .rcall 2, .ldd 5 .Y 42, .std .Z 63 31] :
      List Instr).all (fun i => faultOf (step (at1 2048 0 0 i)) == some (.notImplemented i (render i))) = true := by decide
/-- P10: the empty program -/
theorem test_empty_program : faultOf (step State.reset) = some (.unmappedPC 0) := by decide
/-- a placed table word runs next -/
theorem test_placed_word :
    (after (step (State.reset.withFetchWord 16 0xE005))).map (fun t => (t.reg 16, t.pc)) = some (0x05, 2) ∧
      faultOf (step (State.reset.withFetchWord 16 0)) = some (.unmappedPC 0) := by decide
/-- R61's examples -/
theorem test_render_text :
    renderText (.eor 17 18) = "EOR R17, R18" ∧ renderText (.out 0 16) = "OUT 0x00, R16" ∧
      renderText (.jmp 6) = "JMP 0x000006" ∧ renderText (.rjmp (-2)) = "RJMP .-2" ∧
      renderText (.ldd 5 .Y 42) = "LDD R5, Y+42" ∧ renderText .ret = "RET" := by decide

/-! The load: programs P2, P5, P6, P7, P8 of section 3. -/

theorem test_load_p2_offsets : (match load [0x940C, 0x0003, 0xE001, 0xE012, 0xBB00, 0xBB11] with
    | .loaded _ os => os | .loadFault _ => []) = [0, 2, 3, 4, 5] := by decide
theorem test_load_p5_terminator : load [0xE001, 0x0000, 0xE012] = .loaded [.ldi 16 0x01] [0] := by decide
theorem test_load_p6 :
    load [0x940C, 0x0003, 0x940C, 0x0000, 0xE009] = .loaded [.jmp 6, .jmp 0, .ldi 16 0x09] [0, 2, 4] := by decide
theorem test_load_p7_fault : load [0xE001, 0x2D01, 0xB900] = .loadFault (.unmatched 0x2D01) := by decide
theorem test_load_p8_cut : load [0xE001, 0x940C] = .loaded [.ldi 16 0x01] [0] := by decide

/-! Witnesses: for each statement with hypotheses, a state and operands that meet all of them together. -/

/-- A legal state that is about to run a CALL at the top of a 2 KB DATA. -/
def callState : State := at1 2048 0x07FF 2 (.call 0x0A)

theorem callState_inv : callState.Inv := by constructor <;> decide
theorem witness_StepKeepsTheInvariant : callState.Inv ∧ ∃ t, step callState = .next t := ⟨callState_inv, _, rfl⟩
theorem witness_BringUpMeetsTheInvariant : ∃ s, bringUp [0xE005, 0xB900] 2048 0x07FF = .next s := ⟨_, rfl⟩
theorem witness_DecodeOfEncode :
    (Instr.ldi 16 0xFF).wellFormed = true ∧ (Instr.call 0x7FFFFE).wellFormed = true ∧ (Instr.rjmp (-4096)).wellFormed = true := by decide
theorem witness_EncodeOfDecode : decodeOne [0x0000, 0x95FF, 0xFFFF] 1 = .decoded (.call 0x7FFFFE) 2 := by decide
theorem witness_PatternRowsAreDisjoint : ∃ p ∈ patterns, p.hits 0x9508 = true := by decide
theorem witness_two_word_row : matchWord 0x940C = some ⟨.jmp, 0xFE0E, 0x940C, 2⟩ ∧ matchWord 0x95FF = some ⟨.call, 0xFE0E, 0x940E, 2⟩ := by decide
theorem witness_one_word_row : matchWord 0xE005 = some ⟨.ldi, 0xF000, 0xE000, 1⟩ := by decide
theorem witness_RunningOutOfWords : ([0xE005] : List Word).length ≤ 1 ∧ ([] : List Word).length ≤ 0 := by decide
theorem witness_RegisterPairWords :
    (0x0C00 : Word).toNat / 1024 = 3 ∧ (0x0FFF : Word).toNat / 1024 = 3 ∧ (0x1C00 : Word).toNat / 1024 = 7 ∧
      (0x1FFF : Word).toNat / 1024 = 7 ∧ (0x2400 : Word).toNat / 1024 = 9 ∧ (0x27FF : Word).toNat / 1024 = 9 := by decide
theorem witness_ImmediateAndIoWords :
    (0xE000 : Word).toNat / 4096 = 14 ∧ (0xEFFF : Word).toNat / 4096 = 14 ∧ (0xB000 : Word).toNat / 2048 = 22 ∧
      (0xB7FF : Word).toNat / 2048 = 22 ∧ (0xB800 : Word).toNat / 2048 = 23 ∧ (0xBFFF : Word).toNat / 2048 = 23 := by decide
theorem witness_AbsoluteWords :
    ((0x940C : Word).toNat / 512 = 74 ∧ (0x940C : Word).toNat / 2 % 8 = 6) ∧
      ((0x95FD : Word).toNat / 512 = 74 ∧ (0x95FD : Word).toNat / 2 % 8 = 6) ∧
      ((0x940E : Word).toNat / 512 = 74 ∧ (0x940E : Word).toNat / 2 % 8 = 7) ∧
      ((0x95FF : Word).toNat / 512 = 74 ∧ (0x95FF : Word).toNat / 2 % 8 = 7) := by decide
theorem witness_RelativeWords :
    (0xC7FF : Word).toNat / 4096 = 12 ∧ (0xC800 : Word).toNat / 4096 = 12 ∧ (0xD7FF : Word).toNat / 4096 = 13 ∧
      (0xD800 : Word).toNat / 4096 = 13 := by decide
theorem witness_DisplacedWords :
    ((0xADFF : Word).toNat / 16384 = 2 ∧ (0xADFF : Word).toNat / 4096 % 2 = 0 ∧ (0xADFF : Word).toNat / 512 % 2 = 0) ∧
      ((0x8200 : Word).toNat / 16384 = 2 ∧ (0x8200 : Word).toNat / 4096 % 2 = 0 ∧ (0x8200 : Word).toNat / 512 % 2 = 1) := by decide
theorem witness_SingleRegisterWords :
    ((0x920F : Word).toNat / 512 = 73 ∧ (0x920F : Word).toNat % 16 = 15) ∧
      ((0x91FF : Word).toNat / 512 = 72 ∧ (0x91FF : Word).toNat % 16 = 15) := by decide
theorem witness_RangeCheck : (31 ≤ 31 ∧ 63 ≤ 63) ∧ 32 ≤ 32 ∧ (31 ≤ 31 ∧ 64 ≤ 64) := by decide
theorem witness_LoadFollowsItsLoop :
    decodeOne [0xE005, 0xB900] 1 = .decoded (.out 0 16) 1 ∧ decodeOne [0xE005] 1 = .endOfStream ∧
      decodeOne [0xFFFF] 0 = .failure (.unmatched 0xFFFF) := by decide
/-- for every statement about a completed load -/
theorem witness_completed_load : load [0x940E, 0x0005, 0x94F8] = .loaded [.call 0x0A, .cli] [0, 2] := by decide
theorem witness_EncodedSequenceLoadsBack : ∀ i ∈ [Instr.jmp 6, .ldi 31 1, .rcall 4094], i.wellFormed = true := by decide
theorem witness_SecondWords :
    (ProgramMemory.ofLoad [.call 0x0A, .cli] [0, 2]).lookup 0 = some (.call 0x0A, 2) := by decide
theorem witness_LoadFault : load [0x2D01] = .loadFault (.unmatched 0x2D01) := by decide
theorem witness_BringUpFaults :
    (1 ≤ 1 ∧ 65536 ≤ 65536 ∧ ([0x2D01] : List Word).length ≤ 2 ^ 22) ∧
      faultOf (bringUp [0x2D01] 1 0) = some (.decodeFailure (.unmatched 0x2D01)) ∧ load [0x9508] = .loaded [.ret] [0] := by decide
theorem witness_StepLooksUp :
    State.reset.pm.lookup State.reset.pc.toNat = none ∧ callState.pm.lookup callState.pc.toNat = some (.call 0x0A, 2) := by decide
theorem witness_StepRunsTheInstructionDecodedFromTheImage :
    ∃ s : State, load [0xE005, 0xB900] = .loaded [.ldi 16 0x05, .out 0 16] [0, 1] ∧
      s.pm = ProgramMemory.ofLoad [.ldi 16 0x05, .out 0 16] [0, 1] ∧ 1 ∈ [0, 1] ∧ s.pc.toNat = 2 * 1 ∧
      decodeOne [0xE005, 0xB900] 1 = .decoded (.out 0 16) 1 :=
  ⟨{ State.reset with pc := 2, pm := ProgramMemory.ofLoad [.ldi 16 0x05, .out 0 16] [0, 1] }, by decide⟩
theorem witness_PlacedTableWord :
    decodeTableWord 32 0x0003940E = some (.call 6) ∧ decodeTableWord 16 0x9508 = some .ret := by decide
theorem witness_OutWritesOneIoByte : State.reset.io.wf = true := by decide
/-- the top of DATA, and the lowest SP at which a CALL completes in a small DATA -/
theorem witness_CallPushes :
    (callState.data.wf = true ∧ callState.sp.toNat < callState.dmemSize ∧ (callState.sp - 1).toNat < callState.dmemSize) ∧
      ((at1 2 1 0 (.call 0)).sp.toNat < (at1 2 1 0 (.call 0)).dmemSize ∧
        ((at1 2 1 0 (.call 0)).sp - 1).toNat < (at1 2 1 0 (.call 0)).dmemSize) := by decide
theorem witness_CallRaises :
    (at1 2048 0x0800 0 (.call 4)).dmemSize ≤ (at1 2048 0x0800 0 (.call 4)).sp.toNat ∧
      ((at1 2048 0 0 (.call 4)).sp.toNat < (at1 2048 0 0 (.call 4)).dmemSize ∧
        (at1 2048 0 0 (.call 4)).dmemSize ≤ ((at1 2048 0 0 (.call 4)).sp - 1).toNat) := by decide
/-- for FlagsAreNeverWrittenAndNeverRead, ProgramMemoryIsReadOnly, StackPointerMovesOnlyByCall and
EachDataSpaceIsReachedByItsOwnKind; the fault also for DataSpacesAreNeverRead -/
theorem witness_exec_answers :
    (∃ t, exec (.call 0x0A) callState = .next t ∧ t.data ≠ callState.data) ∧
      (∃ t, exec (.out 0 16) (callState.setReg 16 5) = .next t ∧ t.io ≠ callState.io) ∧
      (∃ f, exec .ret callState = .fault f) :=
  ⟨⟨_, rfl, by decide⟩, ⟨_, rfl, by decide⟩, ⟨_, rfl⟩⟩
/-- an OUT and a CALL over spaces, and replacements of them, that hold other bytes where they store and beside it; the
CALL at SP = 0, whose second byte goes to the top of a full DATA (D5) -/
theorem witness_DataSpacesAreNeverRead :
    (Memory.wf [(62, 1), (63, 7)] = true ∧ Memory.wf [(0, 2), (65535, 3)] = true ∧ Memory.wf [] = true) ∧
      StoresTo (.out 63 1) State.reset .io 63 ∧ ¬ StoresTo (.out 63 1) State.reset .io 62 ∧
      (∃ t, exec (.out 63 1) State.reset = .next t) ∧
      StoresTo (.call 4) (at1 65536 0 0 (.call 4)) .data 0 ∧ StoresTo (.call 4) (at1 65536 0 0 (.call 4)) .data 65535 ∧
      ¬ StoresTo (.call 4) (at1 65536 0 0 (.call 4)) .data 1 ∧
      (∃ t, exec (.call 4) (at1 65536 0 0 (.call 4)) = .next t) :=
  ⟨by decide, ⟨rfl, rfl⟩, fun h => absurd h.2 (by decide), ⟨_, rfl⟩, ⟨rfl, .inl (by decide)⟩, ⟨rfl, .inr (by decide)⟩,
    fun h => absurd h.2 (by decide), ⟨_, rfl⟩⟩
theorem witness_LowRegistersChangeOnlyByEor :
    ∃ s t : State, s.pm.wf = true ∧ step s = .next t ∧ (15 : RegIdx).val < 16 ∧ t.reg 15 ≠ s.reg 15 :=
  ⟨(at1 2048 0 0 (.eor 15 16)).setReg 16 1, _, by decide, rfl, by decide, by decide⟩
theorem witness_MemoryPrimitives :
    (State.reset.space .data).wf = true ∧ State.reset.spaceSize .data ≤ 2048 ∧ 2047 < State.reset.spaceSize .data ∧
      63 < State.reset.spaceSize .io ∧ 31 < State.reset.spaceSize .regAlias ∧ 159 < State.reset.spaceSize .extio := by decide
theorem witness_CanonicalSpaces : Memory.wf [(3, 1), (7, 2)] = true := by decide
theorem witness_StackPointerMoves : (at1 2048 0x0100 0 .ret).spl = 0 ∧ (at1 2048 0x0101 0 .ret).spl ≠ 0 := by decide
theorem witness_RenderDetermines : render (.std .Z 63 31) = render (.std .Z 63 31) := by decide
theorem witness_FatalConditionEndsTheRun : (report 1 State.reset).ended = .fatal (.unmappedPC 0) := by decide
theorem witness_JumpToItself : (at1 2048 0 6 (.jmp 6)).pm.lookup (at1 2048 0 6 (.jmp 6)).pc.toNat = some (.jmp (at1 2048 0 6 (.jmp 6)).pc, 2) := by decide
theorem witness_FallingThrough :
    (at1 2048 0 0x7FFFFE (.out 0 0)).pm.lookup (at1 2048 0 0x7FFFFE (.out 0 0)).pc.toNat = some (.out 0 0, 1) ∧
      (at1 2048 0 0x7FFFFE (.out 0 0)).pm.lookup (((at1 2048 0 0x7FFFFE (.out 0 0)).pc.toNat + 2) % 2 ^ 23) = none := by decide
theorem witness_TransferToUnmapped :
    callState.pm.lookup (0x0A : Pc).toNat = none ∧ callState.pm.lookup callState.pc.toNat = some (.call 0x0A, 2) ∧
      callState.sp.toNat < callState.dmemSize ∧ (callState.sp - 1).toNat < callState.dmemSize ∧
      (at1 2048 0 0 (.jmp 6)).pm.lookup (6 : Pc).toNat = none ∧
      (at1 2048 0 0 (.jmp 6)).pm.lookup (at1 2048 0 0 (.jmp 6)).pc.toNat = some (.jmp 6, 2) := by decide
/-- the tightest stack: two CALLs from SP = 3 in a DATA of 4 bytes -/
theorem witness_NestedCalls :
    (at1 4 3 0 .ret).data.wf = true ∧ 2 * ([4, 8] : List Pc).length - 1 ≤ (at1 4 3 0 .ret).sp.toNat ∧
      (at1 4 3 0 .ret).sp.toNat < (at1 4 3 0 .ret).dmemSize := by decide
theorem test_nested_calls_tightest : (after (execSeq [.call 4, .call 8] (at1 4 3 0 .ret))).map (fun t => t.sp) = some 0xFFFF := by decide

end Sys2Proof.Tests
end

section
/-! PROOF. The flags (spec/10_state.md R13): no step writes them, and no instruction's outcome depends on them. -/

namespace Sys2Proof.Machine

/-! What a decode-only kind and a fault of any instruction can be. -/

/-- The eleven decode-only kinds have the default execute (R87). -/
theorem exec_of_decodeOnly {i : Instr} (h : i.executes = false) (ht : i ≠ .terminator) (s : State) :
    exec i s = executeDefault i s := by
  cases i with
  | eor | ldi | out | jmp | call => cases h
  | terminator => exact absurd rfl ht
  | ret | cli | push | pop | add | adc | inp | rjmp | rcall | ldd | std => rfl

/-- Everything an instruction that faults can have met (R141, R155, R156): a fault depends on the instruction, `pc`,
SP and `DMEM_SIZE` and on nothing else of the state. -/
theorem exec_fault_iff (i : Instr) (s : State) (f : Fault) :
    exec i s = .fault f ↔
      (i = .terminator ∧ f = .unmappedPC s.pc) ∨
      (i.executes = false ∧ i ≠ .terminator ∧ f = .notImplemented i (render i)) ∨
      ∃ target, i = .call target ∧
        ((s.dmemSize ≤ s.sp.toNat ∧ f = .dataAddress s.sp.toNat) ∨
          (s.sp.toNat < s.dmemSize ∧ s.dmemSize ≤ (s.sp - 1).toNat ∧ f = .dataAddress (s.sp - 1).toNat)) := by
  constructor
  · intro h
    cases i with
    | eor | ldi | jmp => cases h
    | out a r => cases (execOut_eq a r s).symm.trans h
    | call target => exact .inr (.inr ⟨target, rfl, (execCall_fault_iff target s f).1 h⟩)
    | terminator => cases h; exact .inl ⟨rfl, rfl⟩
    | ret | cli | push | pop | add | adc | inp | rjmp | rcall | ldd | std =>
      cases h; exact .inr (.inl ⟨rfl, nofun, rfl⟩)
  · rintro (⟨rfl, rfl⟩ | ⟨hi, ht, rfl⟩ | ⟨target, rfl, h⟩)
    · rfl
    · exact exec_of_decodeOnly hi ht s
    · exact (execCall_fault_iff target s f).2 h

/-! Runs. -/

/-- What every step keeps, a run of any length keeps: a fatal condition ends it in the state before (R160). -/
theorem report_keeps {α : Type} {g : State → α} (hstep : ∀ s t, step s = .next t → g t = g s) (k : Nat) (s : State) :
    g (report k s).final = g s := by
  induction k generalizing s with
  | zero => rfl
  | succ k ih =>
    unfold report
    split
    next t h => exact (ih t).trans (hstep s t h)
    next => rfl
    next => rfl

/-! No instruction writes a flag. -/

@[simp] theorem outState_flags (a : IoAddr) (r : RegIdx) (s : State) : (outState a r s).flags = s.flags := rfl
@[simp] theorem calledState_flags (target : Pc) (s : State) : (calledState target s).flags = s.flags := rfl

theorem exec_keeps_flags {i : Instr} {s t : State} (h : exec i s = .next t) : t.flags = s.flags := by
  obtain ⟨d, r, -, rfl⟩ | ⟨d, k, -, rfl⟩ | ⟨a, r, -, rfl⟩ | ⟨target, -, rfl⟩ | ⟨target, -, -, -, rfl⟩ :=
    exec_next_cases h <;> simp

theorem step_keeps_flags (s t : State) (h : step s = .next t) : t.flags = s.flags := by
  obtain ⟨i, n, -, hexec⟩ := step_next_iff.1 h
  exact exec_keeps_flags hexec

/-! No instruction reads a flag: what the meanings look at is the same under any flags. -/

@[simp] theorem State.sp_setFlags (s : State) (f : Flags) : (s.setFlags f).sp = s.sp := rfl

/-- An instruction that completes does so under any flags, with the same next state but for them:
every update commutes with the replacement by definition, and CALL's bounds on SP do not see it. -/
theorem exec_setFlags_of_next {i : Instr} {s t : State} (h : exec i s = .next t) (f : Flags) :
    exec i (s.setFlags f) = .next (t.setFlags f) := by
  obtain ⟨d, r, rfl, rfl⟩ | ⟨d, k, rfl, rfl⟩ | ⟨a, r, rfl, rfl⟩ | ⟨target, rfl, rfl⟩ | ⟨target, rfl, hlow, hhigh, rfl⟩ :=
    exec_next_cases h
  · rfl
  · rfl
  · exact execOut_eq a r (s.setFlags f)
  · rfl
  · exact (execCall_next_iff target (s.setFlags f) _).2 ⟨hlow, hhigh, rfl⟩

/-- An instruction that faults raises the same fault under any flags. -/
theorem exec_setFlags_of_fault {i : Instr} {s : State} {e : Fault} (h : exec i s = .fault e) (f : Flags) :
    exec i (s.setFlags f) = .fault e := by
  rw [exec_fault_iff] at h ⊢
  simpa using h

/-- Settles O39, from the inversion of a completing instruction, the exact conditions of a fault, and one induction
over the run. -/
theorem flagsAreNeverWrittenAndNeverRead : Obligations.FlagsAreNeverWrittenAndNeverRead :=
  ⟨step_keeps_flags, report_keeps step_keeps_flags,
    fun _ _ f => ⟨fun _ h => exec_setFlags_of_next h f, fun _ h => exec_setFlags_of_fault h f⟩⟩

end Sys2Proof.Machine
end

section
/-! PROOF. Program Memory (spec/20_memory.md R40): no instruction writes it, so a run of any length keeps it. -/

namespace Sys2Proof.Machine

@[simp] theorem outState_pm (a : IoAddr) (r : RegIdx) (s : State) : (outState a r s).pm = s.pm := rfl
@[simp] theorem calledState_pm (target : Pc) (s : State) : (calledState target s).pm = s.pm := rfl

/-- Each of the five kinds that complete updates registers, `pc`, SP or one data space, and Program Memory is none
of these. -/
theorem exec_keeps_pm {i : Instr} {s t : State} (h : exec i s = .next t) : t.pm = s.pm := by
  obtain ⟨d, r, -, rfl⟩ | ⟨d, k, -, rfl⟩ | ⟨a, r, -, rfl⟩ | ⟨target, -, rfl⟩ | ⟨target, -, -, -, rfl⟩ :=
    exec_next_cases h <;> simp

theorem step_keeps_pm (s t : State) (h : step s = .next t) : t.pm = s.pm := by
  obtain ⟨i, n, -, hexec⟩ := step_next_iff.1 h
  exact exec_keeps_pm hexec

theorem report_keeps_pm (k : Nat) (s : State) : (report k s).final.pm = s.pm :=
  report_keeps step_keeps_pm k s

/-- Settles O40, from the inversion of a completing instruction and the induction over a run that `report_keeps`
packages: equal Program Memories give equal lookups. -/
theorem programMemoryIsReadOnly : Obligations.ProgramMemoryIsReadOnly :=
  ⟨fun _ _ _ h => exec_keeps_pm h, fun k s a => congrArg (·.lookup a) (report_keeps_pm k s)⟩

end Sys2Proof.Machine
end

section
/-! PROOF. The length of an instruction (spec/30_encoding.md R56): the matched row fixes it, and nothing else does. -/

namespace Sys2Proof

/-- JMP and CALL rows are two words, every other row is one (R54). -/
theorem words_of_mem_patterns :
    ∀ p ∈ patterns, p.words = if p.kind = .jmp ∨ p.kind = .call then 2 else 1 := by
  decide

/-- The fields of format DISP pass the range check of R60: five bits are below 32 and six below 64. -/
theorem checkedDisp_fields (w : Word) (build : RegIdx → Disp6 → Instr) :
    checkedDisp w (fieldReg w).toNat (fieldQ w).toNat build =
      .decoded (build (fieldReg w).toFin (fieldQ w).toFin) 1 :=
  (checkedDisp_decoded_iff ..).2 ⟨(fieldReg w).isLt, (fieldQ w).isLt, rfl, rfl⟩

/-- The Field Decoder answers an instruction of the descriptor's width, whatever the raw words are, when that width
is the one of the kind. -/
theorem extract_decodes {k : Kind} {n : Nat} (hn : n = if k = .jmp ∨ k = .call then 2 else 1) (words : List Word) :
    ∃ i, extract ⟨k, n, words⟩ = .decoded i n ∧ i.width = n := by
  subst hn
  cases k with
  | ldd | std => simp [extract, checkedDisp_fields, Instr.width]
  | ret | cli | push | pop | jmp | call | add | adc | eor | ldi | inp | out | rjmp | rcall => exact ⟨_, rfl, rfl⟩

/-- With two words at hand, a matched word is decoded as its row says: the row's kind and length, and as many raw
words as that length (R81). -/
theorem decodeOne_of_matchWord {w : Word} {p : Pattern} (w1 : Word) (rest : List Word) (h : matchWord w = some p) :
    decodeOne (w :: w1 :: rest) 0 = extract ⟨p.kind, p.words, [w, w1].take p.words⟩ := by
  have hwords := words_of_mem_patterns p (mem_of_matchWord h).1
  split at hwords
  · rw [decodeOne_of_two_words w1 rest h hwords, hwords]
    rfl
  · rw [decodeOne_of_one_word (w1 :: rest) h (by omega), hwords]
    rfl

/-- Settles O10: the rows by inspection; a matched word by the row's length and the Field Decoder, which keeps it for
every kind. -/
theorem lengthIsThatOfTheMatchedRow : Obligations.LengthIsThatOfTheMatchedRow := by
  refine ⟨words_of_mem_patterns, fun w p w1 rest h => ?_⟩
  rw [decodeOne_of_matchWord w1 rest h]
  exact extract_decodes (words_of_mem_patterns p (mem_of_matchWord h).1) _

end Sys2Proof
end

section
/-! PROOF. The step and the decode-only kinds (spec/40_pipeline.md R85, R87): the engine runs what it looked up, and
a kind without execution semantics stops the run. -/

namespace Sys2Proof.Machine

/-- Settles O27, from what a step does on a miss and on a hit of the lookup. -/
theorem stepLooksUpAndExecutes : Obligations.StepLooksUpAndExecutes :=
  fun _ => ⟨step_of_miss, fun _ _ => step_of_hit⟩

/-- The default execute is this fault in every state, as no part of it reads the state (R155). -/
theorem exec_notImplemented_of_decodeOnly {i : Instr} {s : State} (h : i.executes = false) (ht : i ≠ .terminator) :
    exec i s = .fault (.notImplemented i (render i)) :=
  exec_of_decodeOnly h ht s

/-- Settles O37: each of the eleven kinds is decode-only and none is the terminator row. -/
theorem decodeOnlyKindsRaiseNotImplemented : Obligations.DecodeOnlyKindsRaiseNotImplemented := by
  intro s d r a disp ptr q
  refine ⟨?_, ?_, ?_, ?_, ?_, ?_, ?_, ?_, ?_, ?_, ?_⟩ <;>
    exact exec_notImplemented_of_decodeOnly rfl nofun

end Sys2Proof.Machine
end

section
/-! PROOF. The terminator row (spec/45_system.md R141): it has no execute, and where one stood the outcome is
`Fatal.UnmappedPC`. -/

namespace Sys2Proof.Machine

/-- Settles O38: of the ways an instruction can fault, the terminator row's is `Fatal.UnmappedPC` of `pc`. -/
theorem terminatorRowRaisesUnmappedPc : Obligations.TerminatorRowRaisesUnmappedPc :=
  fun s => (exec_fault_iff .terminator s (.unmappedPC s.pc)).2 (.inl ⟨rfl, rfl⟩)

end Sys2Proof.Machine
end

section
/-! PROOF. The end of a run (spec/60_exceptions.md R158): a fatal condition ends it for good. -/

namespace Sys2Proof.Machine

/-! What a run does with the outcome of its first step (R88, R160). -/

theorem report_succ_of_next {s t : State} (h : step s = .next t) (k : Nat) : report (k + 1) s = report k t := by
  simp [report, h]

theorem report_succ_of_fault {s : State} {f : Fault} (h : step s = .fault f) (k : Nat) :
    report (k + 1) s = ⟨s, .fatal f⟩ := by
  simp [report, h]

theorem report_succ_of_refused {s : State} {r : Refusal} (h : step s = .refused r) (k : Nat) :
    report (k + 1) s = ⟨s, .refused r⟩ := by
  simp [report, h]

/-- A run that met a fatal condition has used the steps it took, and a budget beyond them changes nothing: the step
that raised the condition is met at the same place under both. -/
theorem report_add_of_fatal {k : Nat} {s : State} {f : Fault} (h : (report k s).ended = .fatal f) (j : Nat) :
    report (k + j) s = report k s := by
  induction k generalizing s with
  | zero => cases h
  | succ k ih =>
    rw [Nat.add_right_comm]
    cases hs : step s with
    | next t =>
      rw [report_succ_of_next hs] at h
      rw [report_succ_of_next hs, report_succ_of_next hs, ih h]
    | fault e => rw [report_succ_of_fault hs, report_succ_of_fault hs]
    | refused r =>
      rw [report_succ_of_refused hs] at h
      cases h

theorem not_safeFor_of_fatal {k : Nat} {s : State} {f : Fault} (h : (report k s).ended = .fatal f) :
    ¬ SafeFor k s :=
  fun hsafe => nomatch h.symm.trans hsafe

/-- Settles O49: the larger budget gives the same report, which ends in the fault and so is not the host's stop. -/
theorem fatalConditionEndsTheRun : Obligations.FatalConditionEndsTheRun := by
  intro k j s f h
  have hsame : report (k + j) s = report k s := report_add_of_fatal h j
  exact ⟨hsame, not_safeFor_of_fatal (hsame ▸ h)⟩

end Sys2Proof.Machine
end

section
/-! PROOF. Bit patterns as numbers: what a mask keeps of a word, and what filling a field of a word adds to it. -/

namespace Sys2Proof

/-- `n` one bits from bit `k` on. -/
def fieldMask (k n : Nat) : Word := BitVec.ofNat 16 (2 ^ n - 1) <<< k

/-- A mask of one field keeps that field and clears the rest. -/
theorem toNat_and_fieldMask (w : Word) {k n : Nat} (h : k + n ≤ 16) :
    (w &&& fieldMask k n).toNat = w.toNat / 2 ^ k % 2 ^ n * 2 ^ k := by
  have hn : 2 ^ n - 1 < 2 ^ 16 := by
    have := Nat.pow_le_pow_right (show 0 < 2 by decide) (show n ≤ 16 by omega)
    omega
  apply Nat.eq_of_testBit_eq
  intro i
  simp only [fieldMask, BitVec.toNat_and, BitVec.toNat_shiftLeft, BitVec.toNat_ofNat, Nat.mod_eq_of_lt hn,
    Nat.testBit_and, Nat.testBit_mod_two_pow, Nat.testBit_shiftLeft, Nat.testBit_two_pow_sub_one,
    Nat.testBit_mul_two_pow, Nat.testBit_div_two_pow]
  by_cases hk : k ≤ i
  · by_cases hi : i - k < n
    · simp [hk, hi, show i < 16 by omega, show i - k + k = i by omega]
    · simp [hi]
  · simp [hk]

/-- Disjoint bits are joined by addition. -/
theorem toNat_or_of_and_eq_zero {x y : Word} (h : x &&& y = 0) : (x ||| y).toNat = x.toNat + y.toNat := by
  rw [← BitVec.add_eq_or_of_and_eq_zero x y h, BitVec.toNat_add_of_and_eq_zero h]

/-- A mask of two disjoint parts keeps the sum of what each keeps. -/
theorem toNat_and_or (w : Word) {a b : Word} (h : a &&& b = 0) :
    (w &&& (a ||| b)).toNat = (w &&& a).toNat + (w &&& b).toNat := by
  rw [BitVec.and_or_distrib_left]
  apply toNat_or_of_and_eq_zero
  calc w &&& a &&& (w &&& b) = w &&& (a &&& b) := by ac_nf
    _ = 0 := by simp [h]

/-- Putting a value into an empty field of a word adds it there. -/
theorem toNat_or_field {x y : Word} {k n : Nat} (h : k + n ≤ 16) (hx : x.toNat / 2 ^ k % 2 ^ n = 0)
    (hy : y.toNat < 2 ^ n) : (x ||| y <<< k).toNat = x.toNat + y.toNat * 2 ^ k := by
  have hdisjoint : x &&& y <<< k = 0 := by
    apply BitVec.eq_of_getLsbD_eq
    intro i hi
    by_cases hlow : i < k
    · simp [hlow]
    · by_cases hin : i - k < n
      · have hbit : (x.toNat / 2 ^ k % 2 ^ n).testBit (i - k) = x.getLsbD i := by
          simp [Nat.testBit_mod_two_pow, Nat.testBit_div_two_pow, hin, show i - k + k = i by omega, BitVec.getLsbD]
        have hempty : x.getLsbD i = false := by rw [← hbit, hx, Nat.zero_testBit]
        simp [hempty]
      · have hhigh : y.getLsbD (i - k) = false :=
          Nat.testBit_lt_two_pow (hy.trans_le (Nat.pow_le_pow_right (by decide) (by omega)))
        simp [hhigh]
  have hvalue : y.toNat * 2 ^ k < 2 ^ 16 := calc
    y.toNat * 2 ^ k < 2 ^ n * 2 ^ k := Nat.mul_lt_mul_of_pos_right hy (Nat.two_pow_pos k)
    _ = 2 ^ (k + n) := by rw [← Nat.pow_add, Nat.add_comm]
    _ ≤ 2 ^ 16 := Nat.pow_le_pow_right (by decide) h
  rw [toNat_or_of_and_eq_zero hdisjoint, BitVec.toNat_shiftLeft, Nat.shiftLeft_eq, Nat.mod_eq_of_lt hvalue]

/-- Putting a number into an empty field of a word adds it there. -/
theorem toNat_or_ofNat {x : Word} {v : Nat} (k n : Nat) (h : k + n ≤ 16) (hx : x.toNat / 2 ^ k % 2 ^ n = 0)
    (hv : v < 2 ^ n) : (x ||| BitVec.ofNat 16 v <<< k).toNat = x.toNat + v * 2 ^ k := by
  have hv16 : (BitVec.ofNat 16 v).toNat = v :=
    Nat.mod_eq_of_lt (hv.trans_le (Nat.pow_le_pow_right (by decide) (by omega)))
  rw [toNat_or_field h hx (hv16.trans_lt hv), hv16]

/-- Putting a number into the empty lowest bits of a word adds it. -/
theorem toNat_or_low_ofNat {x : Word} {v : Nat} (n : Nat) (h : n ≤ 16) (hx : x.toNat % 2 ^ n = 0)
    (hv : v < 2 ^ n) : (x ||| BitVec.ofNat 16 v).toNat = x.toNat + v := by
  have hfill := toNat_or_ofNat (x := x) 0 n (by omega) (by simpa using hx) hv
  simpa using hfill

end Sys2Proof
end

section
/-! PROOF. The rows of the pattern list (spec/30_encoding.md R54, R55): no word matches two, and which words a row
matches is a statement about the word as a number. -/

namespace Sys2Proof

theorem Pattern.hits_iff (p : Pattern) (w : Word) : p.hits w = true ↔ w &&& p.mask = p.value := by
  simp [Pattern.hits]

/-- Two different rows disagree on a bit that both fix. -/
theorem eq_of_values_agree_on_masks :
    ∀ p ∈ patterns, ∀ q ∈ patterns, p.value &&& q.mask = q.value &&& p.mask → p = q := by
  decide

/-- Settles O7: a word that matches two rows makes their values agree where both masks look, and then the rows are
the same. -/
theorem patternRowsAreDisjoint : Obligations.PatternRowsAreDisjoint := by
  intro w p q hp hq hwp hwq
  rw [Pattern.hits_iff] at hwp hwq
  apply eq_of_values_agree_on_masks p hp q hq
  calc p.value &&& q.mask = w &&& p.mask &&& q.mask := by rw [hwp]
    _ = w &&& q.mask &&& p.mask := by ac_nf
    _ = q.value &&& p.mask := by rw [hwq]

/-- So the order of the tests is not observable: the matcher answers the row that matches. -/
theorem matchWord_of_hits {p : Pattern} {w : Word} (hp : p ∈ patterns) (h : p.hits w = true) :
    matchWord w = some p := by
  cases hm : matchWord w with
  | none => exact absurd h (by simp [(matchWord_none_iff w).1 hm p hp])
  | some q =>
    obtain ⟨hq, hhits⟩ := mem_of_matchWord hm
    rw [patternRowsAreDisjoint w p q hp hq h hhits]

/-- A word of a one-word row is decoded alone. -/
theorem decodeOne_of_hits {p : Pattern} {w : Word} (rest : List Word) (hp : p ∈ patterns) (hwords : p.words = 1)
    (h : p.hits w = true) : decodeOne (w :: rest) 0 = extract ⟨p.kind, 1, [w]⟩ :=
  decodeOne_of_one_word rest (matchWord_of_hits hp h) (by omega)

/-! Each mask of R54 as a number: the fields it keeps. -/

theorem toNat_and_reg1Mask (w : Word) : (w &&& 0xFE0F).toNat = w.toNat / 512 * 512 + w.toNat % 16 := by
  rw [show (0xFE0F : Word) = fieldMask 9 7 ||| fieldMask 0 4 by decide, toNat_and_or _ (by decide),
    toNat_and_fieldMask _ (by decide), toNat_and_fieldMask _ (by decide)]
  omega

theorem toNat_and_absMask (w : Word) : (w &&& 0xFE0E).toNat = w.toNat / 512 * 512 + w.toNat / 2 % 8 * 2 := by
  rw [show (0xFE0E : Word) = fieldMask 9 7 ||| fieldMask 1 3 by decide, toNat_and_or _ (by decide),
    toNat_and_fieldMask _ (by decide), toNat_and_fieldMask _ (by decide)]
  omega

theorem toNat_and_rrMask (w : Word) : (w &&& 0xFC00).toNat = w.toNat / 1024 * 1024 := by
  rw [show (0xFC00 : Word) = fieldMask 10 6 by decide, toNat_and_fieldMask _ (by decide)]
  omega

theorem toNat_and_nibbleMask (w : Word) : (w &&& 0xF000).toNat = w.toNat / 4096 * 4096 := by
  rw [show (0xF000 : Word) = fieldMask 12 4 by decide, toNat_and_fieldMask _ (by decide)]
  omega

theorem toNat_and_ioMask (w : Word) : (w &&& 0xF800).toNat = w.toNat / 2048 * 2048 := by
  rw [show (0xF800 : Word) = fieldMask 11 5 by decide, toNat_and_fieldMask _ (by decide)]
  omega

theorem toNat_and_dispMask (w : Word) : (w &&& 0xD208).toNat =
    w.toNat / 16384 * 16384 + w.toNat / 4096 % 2 * 4096 + w.toNat / 512 % 2 * 512 + w.toNat / 8 % 2 * 8 := by
  rw [show (0xD208 : Word) = fieldMask 14 2 ||| fieldMask 12 1 ||| fieldMask 9 1 ||| fieldMask 3 1 by decide,
    toNat_and_or _ (by decide), toNat_and_or _ (by decide), toNat_and_or _ (by decide),
    toNat_and_fieldMask _ (by decide), toNat_and_fieldMask _ (by decide), toNat_and_fieldMask _ (by decide),
    toNat_and_fieldMask _ (by decide)]
  omega

/-! Each format's rows: the words they match. -/

theorem hits_reg1_iff (k : Kind) (value : Word) (n : Nat) (w : Word) :
    Pattern.hits ⟨k, 0xFE0F, value, n⟩ w = true ↔ w.toNat / 512 * 512 + w.toNat % 16 = value.toNat := by
  rw [Pattern.hits_iff, ← BitVec.toNat_inj, toNat_and_reg1Mask]

theorem hits_abs_iff (k : Kind) (value : Word) (n : Nat) (w : Word) :
    Pattern.hits ⟨k, 0xFE0E, value, n⟩ w = true ↔ w.toNat / 512 * 512 + w.toNat / 2 % 8 * 2 = value.toNat := by
  rw [Pattern.hits_iff, ← BitVec.toNat_inj, toNat_and_absMask]

theorem hits_rr_iff (k : Kind) (value : Word) (n : Nat) (w : Word) :
    Pattern.hits ⟨k, 0xFC00, value, n⟩ w = true ↔ w.toNat / 1024 * 1024 = value.toNat := by
  rw [Pattern.hits_iff, ← BitVec.toNat_inj, toNat_and_rrMask]

/-- Formats IMM and REL. -/
theorem hits_nibble_iff (k : Kind) (value : Word) (n : Nat) (w : Word) :
    Pattern.hits ⟨k, 0xF000, value, n⟩ w = true ↔ w.toNat / 4096 * 4096 = value.toNat := by
  rw [Pattern.hits_iff, ← BitVec.toNat_inj, toNat_and_nibbleMask]

theorem hits_io_iff (k : Kind) (value : Word) (n : Nat) (w : Word) :
    Pattern.hits ⟨k, 0xF800, value, n⟩ w = true ↔ w.toNat / 2048 * 2048 = value.toNat := by
  rw [Pattern.hits_iff, ← BitVec.toNat_inj, toNat_and_ioMask]

theorem hits_disp_iff (k : Kind) (value : Word) (n : Nat) (w : Word) :
    Pattern.hits ⟨k, 0xD208, value, n⟩ w = true ↔
      w.toNat / 16384 * 16384 + w.toNat / 4096 % 2 * 4096 + w.toNat / 512 % 2 * 512 + w.toNat / 8 % 2 * 8 =
        value.toNat := by
  rw [Pattern.hits_iff, ← BitVec.toNat_inj, toNat_and_dispMask]

end Sys2Proof
end

section
/-! PROOF. One decode of every word (spec/30_encoding.md R52, R57, R59): the operand fields format by format, and
the words that are no instruction. -/

namespace Sys2Proof

/-! The fields as operands. -/

theorem fieldReg_toFin (w : Word) : (fieldReg w).toFin = Fin.ofNat 32 (w.toNat / 16) :=
  Fin.ext (fieldReg_toNat w)

theorem fieldRr_toFin (w : Word) : (fieldRr w).toFin = Fin.ofNat 32 (w.toNat / 512 % 2 * 16 + w.toNat % 16) :=
  Fin.ext ((fieldRr_toNat w).trans (Nat.mod_eq_of_lt (by omega)).symm)

theorem fieldUpperReg_toFin (w : Word) : (fieldUpperReg w).toFin = Fin.ofNat 32 (16 + w.toNat / 16 % 16) :=
  Fin.ext ((fieldUpperReg_toNat w).trans (Nat.mod_eq_of_lt (by omega)).symm)

theorem fieldIo_toFin (w : Word) : (fieldIo w).toFin = Fin.ofNat 64 (w.toNat / 512 % 4 * 16 + w.toNat % 16) :=
  Fin.ext ((fieldIo_toNat w).trans (Nat.mod_eq_of_lt (by omega)).symm)

theorem fieldQ_toFin (w : Word) :
    (fieldQ w).toFin = Fin.ofNat 64 (w.toNat / 8192 % 2 * 32 + w.toNat / 1024 % 4 * 8 + w.toNat % 8) :=
  Fin.ext ((fieldQ_toNat w).trans (Nat.mod_eq_of_lt (by omega)).symm)

theorem fieldImm_eq_ofNat (w : Word) : fieldImm w = BitVec.ofNat 8 (w.toNat / 256 % 16 * 16 + w.toNat % 16) :=
  BitVec.eq_of_toNat_eq ((fieldImm_toNat w).trans (Nat.mod_eq_of_lt (by omega)).symm)

theorem targetOf_fieldAbs (w w1 : Word) : targetOf (fieldAbs w w1) =
    BitVec.ofNat 23 (2 * (w.toNat / 16 % 32 * 131072 + w.toNat % 2 * 65536 + w1.toNat)) := by
  rw [targetOf, pcu, fieldAbs_toNat]

theorem dispOf_fieldRel (w : Word) : dispOf (fieldRel w) =
    if ((w.toNat % 4096 : Nat) : Int) < 2048 then 2 * ((w.toNat % 4096 : Nat) : Int)
    else 2 * (((w.toNat % 4096 : Nat) : Int) - 4096) := by
  rw [dispOf_eq, fieldRel_toNat]
  split <;> split <;> omega

/-! The formats. -/

/-- Settles O12: the three rows of format RR, each by the number its fixed bits make. -/
theorem registerPairWordsDecodeToTheirFields : Obligations.RegisterPairWordsDecodeToTheirFields := by
  intro w rest d r
  have hd : (fieldReg w).toFin = d := fieldReg_toFin w
  have hr : (fieldRr w).toFin = r := fieldRr_toFin w
  rw [← hd, ← hr]
  refine ⟨fun h => ?_, fun h => ?_, fun h => ?_⟩
  · exact decodeOne_of_hits (p := ⟨.add, 0xFC00, 0x0C00, 1⟩) rest (by decide) rfl ((hits_rr_iff ..).2 (by simp [h]))
  · exact decodeOne_of_hits (p := ⟨.adc, 0xFC00, 0x1C00, 1⟩) rest (by decide) rfl ((hits_rr_iff ..).2 (by simp [h]))
  · exact decodeOne_of_hits (p := ⟨.eor, 0xFC00, 0x2400, 1⟩) rest (by decide) rfl ((hits_rr_iff ..).2 (by simp [h]))

/-- Settles O13: the row of format IMM and the two of format IO. -/
theorem immediateAndIoWordsDecodeToTheirFields : Obligations.ImmediateAndIoWordsDecodeToTheirFields := by
  intro w rest k reg a
  have hk : fieldImm w = k := fieldImm_eq_ofNat w
  have hreg : (fieldReg w).toFin = reg := fieldReg_toFin w
  have ha : (fieldIo w).toFin = a := fieldIo_toFin w
  rw [← hk, ← hreg, ← ha, ← fieldUpperReg_toFin]
  refine ⟨fun h => ?_, fun h => ?_, fun h => ?_⟩
  · exact decodeOne_of_hits (p := ⟨.ldi, 0xF000, 0xE000, 1⟩) rest (by decide) rfl
      ((hits_nibble_iff ..).2 (by simp [h]))
  · exact decodeOne_of_hits (p := ⟨.inp, 0xF800, 0xB000, 1⟩) rest (by decide) rfl ((hits_io_iff ..).2 (by simp [h]))
  · exact decodeOne_of_hits (p := ⟨.out, 0xF800, 0xB800, 1⟩) rest (by decide) rfl ((hits_io_iff ..).2 (by simp [h]))

/-- Settles O14: the two rows of format ABS, with the second word that their length takes. -/
theorem absoluteWordsDecodeToTwiceTheWordAddress : Obligations.AbsoluteWordsDecodeToTwiceTheWordAddress := by
  intro w w1 rest target
  have htarget : targetOf (fieldAbs w w1) = target := targetOf_fieldAbs w w1
  rw [← htarget]
  refine ⟨fun h1 h2 => ?_, fun h1 h2 => ?_⟩
  · have hm : matchWord w = some ⟨.jmp, 0xFE0E, 0x940C, 2⟩ :=
      matchWord_of_hits (by decide) ((hits_abs_iff ..).2 (by simp [h1, h2]))
    exact decodeOne_of_two_words w1 rest hm rfl
  · have hm : matchWord w = some ⟨.call, 0xFE0E, 0x940E, 2⟩ :=
      matchWord_of_hits (by decide) ((hits_abs_iff ..).2 (by simp [h1, h2]))
    exact decodeOne_of_two_words w1 rest hm rfl

/-- Settles O15: the two rows of format REL, and the displacement as twice the signed field. -/
theorem relativeWordsDecodeToTwiceTheSignedField : Obligations.RelativeWordsDecodeToTwiceTheSignedField := by
  intro w rest k disp
  have hdisp : dispOf (fieldRel w) = disp := dispOf_fieldRel w
  rw [← hdisp]
  refine ⟨fun h => ?_, fun h => ?_⟩
  · exact decodeOne_of_hits (p := ⟨.rjmp, 0xF000, 0xC000, 1⟩) rest (by decide) rfl
      ((hits_nibble_iff ..).2 (by simp [h]))
  · exact decodeOne_of_hits (p := ⟨.rcall, 0xF000, 0xD000, 1⟩) rest (by decide) rfl
      ((hits_nibble_iff ..).2 (by simp [h]))

theorem extract_ldd (w : Word) :
    extract ⟨.ldd, 1, [w]⟩ = .decoded (.ldd (fieldReg w).toFin (fieldPtr w) (fieldQ w).toFin) 1 :=
  checkedDisp_fields w (fun r q => .ldd r (fieldPtr w) q)

theorem extract_std (w : Word) :
    extract ⟨.std, 1, [w]⟩ = .decoded (.std (fieldPtr w) (fieldQ w).toFin (fieldReg w).toFin) 1 :=
  checkedDisp_fields w (fun r q => .std (fieldPtr w) q r)

/-- The two rows of LDD, and those of STD, differ in the pointer bit alone, which the Field Decoder reads again: a
word of either is decoded by its kind. -/
theorem decodeOne_of_disp {k : Kind} {valueZ valueY w : Word} (rest : List Word)
    (hZ : ⟨k, 0xD208, valueZ, 1⟩ ∈ patterns) (hY : ⟨k, 0xD208, valueY, 1⟩ ∈ patterns)
    (hbit : valueY.toNat = valueZ.toNat + 8)
    (h : w.toNat / 16384 * 16384 + w.toNat / 4096 % 2 * 4096 + w.toNat / 512 % 2 * 512 = valueZ.toNat) :
    decodeOne (w :: rest) 0 = extract ⟨k, 1, [w]⟩ := by
  obtain hbit3 | hbit3 := Nat.mod_two_eq_zero_or_one (w.toNat / 8)
  · exact decodeOne_of_hits rest hZ rfl ((hits_disp_iff ..).2 (by rw [h, hbit3]; rfl))
  · exact decodeOne_of_hits rest hY rfl ((hits_disp_iff ..).2 (by rw [h, hbit3, hbit]))

/-- Settles O16: the four rows of format DISP, whose fields always pass the range check. -/
theorem displacedWordsDecodeToTheirFields : Obligations.DisplacedWordsDecodeToTheirFields := by
  intro w rest q reg ptr h1 h2
  have hq : (fieldQ w).toFin = q := fieldQ_toFin w
  have hreg : (fieldReg w).toFin = reg := fieldReg_toFin w
  have hptr : fieldPtr w = ptr := fieldPtr_eq w
  refine ⟨fun h => ?_, fun h => ?_⟩
  · rw [decodeOne_of_disp (k := .ldd) (valueZ := 0x8000) (valueY := 0x8008) rest (by decide) (by decide) rfl
      (by simp [h1, h2, h]), extract_ldd, hq, hreg, hptr]
  · rw [decodeOne_of_disp (k := .std) (valueZ := 0x8200) (valueY := 0x8208) rest (by decide) (by decide) rfl
      (by simp [h1, h2, h]), extract_std, hq, hreg, hptr]

/-- Settles O17: the two fixed words by evaluation, the two rows of format REG1 by their fixed bits. -/
theorem fixedAndSingleRegisterWordsDecode : Obligations.FixedAndSingleRegisterWordsDecode := by
  intro w rest reg
  have hreg : (fieldReg w).toFin = reg := fieldReg_toFin w
  rw [← hreg]
  refine ⟨fun h => ?_, fun h => ?_, fun h1 h2 => ?_, fun h1 h2 => ?_⟩
  · subst h
    exact decodeOne_of_hits (p := ⟨.ret, 0xFFFF, 0x9508, 1⟩) rest (by decide) rfl (by decide)
  · subst h
    exact decodeOne_of_hits (p := ⟨.cli, 0xFFFF, 0x94F8, 1⟩) rest (by decide) rfl (by decide)
  · exact decodeOne_of_hits (p := ⟨.push, 0xFE0F, 0x920F, 1⟩) rest (by decide) rfl
      ((hits_reg1_iff ..).2 (by simp [h1, h2]))
  · exact decodeOne_of_hits (p := ⟨.pop, 0xFE0F, 0x900F, 1⟩) rest (by decide) rfl
      ((hits_reg1_iff ..).2 (by simp [h1, h2]))

/-- Settles O18, by running the decoder on each word. -/
theorem specVectorsDecode : Obligations.SpecVectorsDecode := by
  refine ⟨?_, ?_, ?_, ?_, ?_, ?_, ?_, ?_⟩ <;> decide

/-! Words that are no instruction, and where the words run out. -/

/-- The terminator word is in no row (R57). -/
theorem no_row_hits_zero : ∀ p ∈ patterns, p.hits 0 = false := by decide

/-- A matched word with a second word at hand decodes to an instruction of the row's width. -/
theorem decodeOne_decodes {w : Word} {p : Pattern} (w1 : Word) (rest : List Word) (h : matchWord w = some p) :
    ∃ i, decodeOne (w :: w1 :: rest) 0 = .decoded i p.words ∧ i.width = p.words :=
  lengthIsThatOfTheMatchedRow.2 w p w1 rest h

/-- Settles O8: the matcher answers a row, or none; and none for the zero word in particular. -/
theorem everyWordIsInstructionTerminatorOrIllegal : Obligations.EveryWordIsInstructionTerminatorOrIllegal := by
  intro w w1 rest
  cases hm : matchWord w with
  | some p =>
    obtain ⟨hp, hhits⟩ := mem_of_matchWord hm
    obtain ⟨i, hdecode, hwidth⟩ := decodeOne_decodes w1 rest hm
    refine .inl ⟨⟨p, hp, hhits⟩, ?_, i, hwidth ▸ hdecode⟩
    rintro rfl
    exact Bool.false_ne_true ((no_row_hits_zero p hp).symm.trans hhits)
  | none =>
    have hnone := (matchWord_none_iff w).1 hm
    have hdecode := decodeOne_of_no_row (w1 :: rest) hm
    by_cases hw : w = 0
    · exact .inr (.inl ⟨hnone, hw, by rw [hdecode, if_pos hw]⟩)
    · exact .inr (.inr ⟨hnone, hw, by rw [hdecode, if_neg hw]⟩)

theorem decodeOne_zero (rest : List Word) : decodeOne (0 :: rest) 0 = .endOfStream :=
  decodeOne_of_no_row rest ((matchWord_none_iff 0).2 no_row_hits_zero)

/-- Settles O9: a zero word matches no row where an instruction starts, and a second word is taken without a test. -/
theorem zeroWordEndsTheStreamOnlyAtAnInstructionStart :
    Obligations.ZeroWordEndsTheStreamOnlyAtAnInstructionStart := by
  refine ⟨decodeOne_zero, no_row_hits_zero, fun w p rest hm hwords => ?_⟩
  obtain ⟨i, hdecode, -⟩ := decodeOne_decodes 0 rest hm
  exact ⟨i, hwords ▸ hdecode⟩

/-- Settles O11: past the end there is no first word, and after the last word there is no second one. -/
theorem runningOutOfWordsEndsTheStream : Obligations.RunningOutOfWordsEndsTheStream := by
  refine ⟨fun img off => decodeOne_of_length_le, fun img w p hm hwords => ?_⟩
  simp [decodeOne, nextWord, hm, hwords]

/-- Settles O19, along the two tests of the check. -/
theorem rangeCheckRejectsRegister32AndDisplacement64 : Obligations.RangeCheckRejectsRegister32AndDisplacement64 := by
  intro w reg q build
  refine ⟨fun hr hq => ?_, fun hr => ?_, fun hr hq => ?_⟩
  · rw [checkedDisp, dif_pos (by omega), dif_pos (by omega)]
  · rw [checkedDisp, dif_neg (by omega)]
  · rw [checkedDisp, dif_pos (by omega), dif_neg (by omega)]

end Sys2Proof
end

section
/-! PROOF. The encoder and the decoder are inverse to each other (spec/30_encoding.md R63): each format's word as a
number, its fields, and from these both directions. -/

namespace Sys2Proof

/-! Each encoded word as the sum of its fixed bits and its fields. -/

theorem encReg1_toNat {op : Word} (hop : op.toNat / 16 % 32 = 0) (reg : RegIdx) :
    (encReg1 op reg).toNat = op.toNat + reg.val * 16 :=
  toNat_or_ofNat 4 5 (by decide) hop reg.isLt

theorem encRR_toNat {op : Word} (hop : op.toNat % 1024 = 0) (d r : RegIdx) :
    (encRR op d r).toNat = op.toNat + r.val / 16 * 512 + d.val * 16 + r.val % 16 := by
  have h1 := toNat_or_ofNat (x := op) (v := r.val / 16) 9 1 (by decide) (by omega) (by omega)
  have h2 := toNat_or_ofNat (v := d.val) 4 5 (by decide) (by rw [h1]; omega) (by omega)
  have h3 := toNat_or_low_ofNat (v := r.val % 16) 4 (by decide) (by rw [h2, h1]; omega) (by omega)
  rw [encRR, h3, h2, h1]
  rfl

theorem encIo_toNat {op : Word} (hop : op.toNat % 2048 = 0) (reg : RegIdx) (a : IoAddr) :
    (encIo op reg a).toNat = op.toNat + a.val / 16 * 512 + reg.val * 16 + a.val % 16 := by
  have h1 := toNat_or_ofNat (x := op) (v := a.val / 16) 9 2 (by decide) (by omega) (by omega)
  have h2 := toNat_or_ofNat (v := reg.val) 4 5 (by decide) (by rw [h1]; omega) (by omega)
  have h3 := toNat_or_low_ofNat (v := a.val % 16) 4 (by decide) (by rw [h2, h1]; omega) (by omega)
  rw [encIo, h3, h2, h1]
  rfl

theorem encImm_toNat (d : RegIdx) (k : Byte) :
    (encImm d k).toNat = 0xE000 + k.toNat / 16 * 256 + (d.val - 16) * 16 + k.toNat % 16 := by
  have hk := k.isLt
  have hhigh : (k.extractLsb 7 4).setWidth 16 = BitVec.ofNat 16 (k.toNat / 16) := by
    apply BitVec.eq_of_toNat_eq
    simp [Nat.shiftRight_eq_div_pow]
    omega
  have hlow : (k.extractLsb 3 0).setWidth 16 = BitVec.ofNat 16 (k.toNat % 16) := by
    apply BitVec.eq_of_toNat_eq
    simp
  have h1 := toNat_or_ofNat (x := (0xE000 : Nat)) (v := k.toNat / 16) 8 4 (by decide) (by decide) (by omega)
  have h2 := toNat_or_ofNat (v := d.val - 16) 4 4 (by decide) (by rw [h1]; simp; omega) (by omega)
  have h3 := toNat_or_low_ofNat (v := k.toNat % 16) 4 (by decide) (by rw [h2, h1]; simp; omega) (by omega)
  rw [encImm, hhigh, hlow, h3, h2, h1]
  rfl

/-- The first word of format ABS, with the halved target's upper bits as numbers (R66). -/
def encAbsFirst (op : Word) (t : Pc) : Word :=
  op ||| BitVec.ofNat 16 (t.toNat / 262144) <<< 4 ||| BitVec.ofNat 16 (t.toNat / 131072 % 2)

theorem encAbs_eq (op : Word) (t : Pc) : encAbs op t = [encAbsFirst op t, BitVec.ofNat 16 (t.toNat / 2)] := by
  have ht := t.isLt
  have hhigh :
      ((BitVec.ofNat 22 (t.toNat / pcu)).extractLsb 21 17).setWidth 16 = BitVec.ofNat 16 (t.toNat / 262144) := by
    apply BitVec.eq_of_toNat_eq
    simp [Nat.shiftRight_eq_div_pow, pcu]
    omega
  have hmid :
      ((BitVec.ofNat 22 (t.toNat / pcu)).extractLsb 16 16).setWidth 16 = BitVec.ofNat 16 (t.toNat / 131072 % 2) := by
    apply BitVec.eq_of_toNat_eq
    simp [Nat.shiftRight_eq_div_pow, pcu]
    omega
  have hlow : (BitVec.ofNat 22 (t.toNat / pcu)).setWidth 16 = BitVec.ofNat 16 (t.toNat / 2) := by
    apply BitVec.eq_of_toNat_eq
    simp [pcu]
  simp only [encAbs, encAbsFirst, hhigh, hmid, hlow]

theorem encAbsFirst_toNat {op : Word} (hop : op.toNat % 2 = 0 ∧ op.toNat / 16 % 32 = 0) (t : Pc) :
    (encAbsFirst op t).toNat = op.toNat + t.toNat / 262144 * 16 + t.toNat / 131072 % 2 := by
  have ht := t.isLt
  obtain ⟨hlow, hmid⟩ := hop
  have h1 := toNat_or_ofNat (v := t.toNat / 262144) 4 5 (by decide) hmid (by omega)
  have h2 := toNat_or_low_ofNat (v := t.toNat / 131072 % 2) 1 (by decide) (by rw [h1]; omega) (by omega)
  rw [encAbsFirst, h2, h1]
  rfl

theorem encRel_toNat {op : Word} (hop : op.toNat % 4096 = 0) (x : Int) :
    (encRel op x).toNat = op.toNat + (x / 2 % 4096).toNat := by
  have hfield : (BitVec.ofInt 12 (x / (pcu : Int))).setWidth 16 = BitVec.ofNat 16 (x / 2 % 4096).toNat := by
    apply BitVec.eq_of_toNat_eq
    simp [pcu, BitVec.toNat_ofInt]
  rw [encRel, hfield, toNat_or_low_ofNat 12 (by decide) hop (by omega)]

/-- `store` is bit 9 and `y` bit 3 of the fixed bits, which select LDD or STD and the pointer (R54). -/
theorem encDisp_toNat {op : Word} {store y : Nat} (hop : op.toNat = 0x8000 + 512 * store + 8 * y) (hstore : store < 2)
    (hy : y < 2) (reg : RegIdx) (q : Disp6) :
    (encDisp op reg q).toNat =
      0x8000 + 8192 * (q.val / 32) + 1024 * (q.val / 8 % 4) + 512 * store + 16 * reg.val + 8 * y + q.val % 8 := by
  have h1 := toNat_or_ofNat (x := op) (v := q.val / 32) 13 1 (by decide) (by omega) (by omega)
  have h2 := toNat_or_ofNat (v := q.val / 8 % 4) 10 2 (by decide) (by rw [h1]; omega) (by omega)
  have h3 := toNat_or_ofNat (v := reg.val) 4 5 (by decide) (by rw [h2, h1]; omega) (by omega)
  have h4 := toNat_or_low_ofNat (v := q.val % 8) 3 (by decide) (by rw [h3, h2, h1]; omega) (by omega)
  rw [encDisp, h4, h3, h2, h1]
  omega

/-- A number put together from the fields of format DISP gives each of them back. -/
theorem disp_digits {w q13 q10 store reg y q0 : Nat} (hq13 : q13 < 2) (hq10 : q10 < 4) (hstore : store < 2)
    (hreg : reg < 32) (hy : y < 2) (hq0 : q0 < 8)
    (hw : w = 0x8000 + 8192 * q13 + 1024 * q10 + 512 * store + 16 * reg + 8 * y + q0) :
    (w / 16384 = 2 ∧ w / 4096 % 2 = 0) ∧ w / 8192 % 2 = q13 ∧ w / 1024 % 4 = q10 ∧ w / 512 % 2 = store ∧
      w / 16 % 32 = reg ∧ w / 8 % 2 = y ∧ w % 8 = q0 := by
  refine ⟨⟨?_, ?_⟩, ?_, ?_, ?_, ?_, ?_, ?_⟩ <;> omega

theorem disp_join (q : Nat) : q / 32 * 32 + q / 8 % 4 * 8 + q % 8 = q := by omega

/-! Decoding what a format's encoder gave: the row of its fixed bits matches, and each field reads back. -/

theorem decodeOne_encReg1 {k : Kind} {op : Word} {build : RegIdx → Instr} (hp : ⟨k, 0xFE0F, op, 1⟩ ∈ patterns)
    (hop : op.toNat / 16 % 32 = 0)
    (hextract : ∀ w, extract ⟨k, 1, [w]⟩ = .decoded (build (fieldReg w).toFin) 1) (reg : RegIdx) (rest : List Word) :
    decodeOne (encReg1 op reg :: rest) 0 = .decoded (build reg) 1 := by
  have hw := encReg1_toNat hop reg
  have hreg : (fieldReg (encReg1 op reg)).toFin = reg :=
    Fin.ext ((fieldReg_toNat _).trans (by rw [hw]; omega))
  rw [decodeOne_of_hits rest hp rfl ((hits_reg1_iff ..).2 (by rw [hw]; omega)), hextract, hreg]

theorem decodeOne_encRR {k : Kind} {op : Word} {build : RegIdx → RegIdx → Instr}
    (hp : ⟨k, 0xFC00, op, 1⟩ ∈ patterns) (hop : op.toNat % 1024 = 0)
    (hextract : ∀ w, extract ⟨k, 1, [w]⟩ = .decoded (build (fieldReg w).toFin (fieldRr w).toFin) 1)
    (d r : RegIdx) (rest : List Word) : decodeOne (encRR op d r :: rest) 0 = .decoded (build d r) 1 := by
  have hw := encRR_toNat hop d r
  have hd : (fieldReg (encRR op d r)).toFin = d := Fin.ext ((fieldReg_toNat _).trans (by rw [hw]; omega))
  have hr : (fieldRr (encRR op d r)).toFin = r := Fin.ext ((fieldRr_toNat _).trans (by rw [hw]; omega))
  rw [decodeOne_of_hits rest hp rfl ((hits_rr_iff ..).2 (by rw [hw]; omega)), hextract, hd, hr]

theorem decodeOne_encIo {k : Kind} {op : Word} {build : RegIdx → IoAddr → Instr}
    (hp : ⟨k, 0xF800, op, 1⟩ ∈ patterns) (hop : op.toNat % 2048 = 0)
    (hextract : ∀ w, extract ⟨k, 1, [w]⟩ = .decoded (build (fieldReg w).toFin (fieldIo w).toFin) 1)
    (reg : RegIdx) (a : IoAddr) (rest : List Word) :
    decodeOne (encIo op reg a :: rest) 0 = .decoded (build reg a) 1 := by
  have hw := encIo_toNat hop reg a
  have hreg : (fieldReg (encIo op reg a)).toFin = reg := Fin.ext ((fieldReg_toNat _).trans (by rw [hw]; omega))
  have ha : (fieldIo (encIo op reg a)).toFin = a := Fin.ext ((fieldIo_toNat _).trans (by rw [hw]; omega))
  rw [decodeOne_of_hits rest hp rfl ((hits_io_iff ..).2 (by rw [hw]; omega)), hextract, hreg, ha]

theorem decodeOne_encImm {d : RegIdx} (hd16 : 16 ≤ d.val) (k : Byte) (rest : List Word) :
    decodeOne (encImm d k :: rest) 0 = .decoded (.ldi d k) 1 := by
  have hk := k.isLt
  have hw := encImm_toNat d k
  have hd : (fieldUpperReg (encImm d k)).toFin = d := Fin.ext ((fieldUpperReg_toNat _).trans (by rw [hw]; omega))
  have hfield : fieldImm (encImm d k) = k := BitVec.eq_of_toNat_eq ((fieldImm_toNat _).trans (by rw [hw]; omega))
  rw [decodeOne_of_hits (p := ⟨.ldi, 0xF000, 0xE000, 1⟩) rest (by decide) rfl
    ((hits_nibble_iff ..).2 (by rw [hw]; simp; omega))]
  simp only [extract, List.getD_cons_zero, hd, hfield]

theorem decodeOne_encAbs {k : Kind} {op : Word} {build : Pc → Instr} (hp : ⟨k, 0xFE0E, op, 2⟩ ∈ patterns)
    (hop : op.toNat % 2 = 0 ∧ op.toNat / 16 % 32 = 0)
    (hextract : ∀ w w1, extract ⟨k, 2, [w, w1]⟩ = .decoded (build (targetOf (fieldAbs w w1))) 2)
    {t : Pc} (ht : t.toNat % 2 = 0) (rest : List Word) :
    decodeOne (encAbs op t ++ rest) 0 = .decoded (build t) 2 := by
  have hlt := t.isLt
  have hw := encAbsFirst_toNat hop t
  obtain ⟨hlow, hmid⟩ := hop
  have hmatch := matchWord_of_hits hp ((hits_abs_iff ..).2 (by rw [hw]; omega))
  have htarget : targetOf (fieldAbs (encAbsFirst op t) (BitVec.ofNat 16 (t.toNat / 2))) = t := by
    apply BitVec.eq_of_toNat_eq
    rw [targetOf_toNat, fieldAbs_toNat, hw, BitVec.toNat_ofNat]
    omega
  rw [encAbs_eq]
  exact (decodeOne_of_two_words _ rest hmatch rfl).trans (by rw [hextract, htarget])

theorem dispOk_iff (x : Int) : dispOk x = true ↔ x % 2 = 0 ∧ -4096 ≤ x ∧ x ≤ 4094 := by
  simp [dispOk, and_assoc]

theorem targetOk_iff (t : Pc) : targetOk t = true ↔ t.toNat % 2 = 0 := by
  simp [targetOk]

theorem decodeOne_encRel {k : Kind} {op : Word} {build : Int → Instr} (hp : ⟨k, 0xF000, op, 1⟩ ∈ patterns)
    (hop : op.toNat % 4096 = 0) (hextract : ∀ w, extract ⟨k, 1, [w]⟩ = .decoded (build (dispOf (fieldRel w))) 1)
    {x : Int} (hx : dispOk x = true) (rest : List Word) :
    decodeOne (encRel op x :: rest) 0 = .decoded (build x) 1 := by
  have hw := encRel_toNat hop x
  obtain ⟨heven, hmin, hmax⟩ := (dispOk_iff x).1 hx
  have hdisp : dispOf (fieldRel (encRel op x)) = x := by
    rw [dispOf_eq, fieldRel_toNat, hw]
    split <;> omega
  rw [decodeOne_of_hits rest hp rfl ((hits_nibble_iff ..).2 (by rw [hw]; omega)), hextract, hdisp]

theorem decodeOne_encDisp {k : Kind} {op : Word} {ptr : Ptr} {store y : Nat} {build : RegIdx → Ptr → Disp6 → Instr}
    (hp : ⟨k, 0xD208, op, 1⟩ ∈ patterns) (hop : op.toNat = 0x8000 + 512 * store + 8 * y) (hstore : store < 2)
    (hy : y < 2) (hptr : (if y = 1 then Ptr.Y else .Z) = ptr)
    (hextract : ∀ w, extract ⟨k, 1, [w]⟩ = .decoded (build (fieldReg w).toFin (fieldPtr w) (fieldQ w).toFin) 1)
    (reg : RegIdx) (q : Disp6) (rest : List Word) :
    decodeOne (encDisp op reg q :: rest) 0 = .decoded (build reg ptr q) 1 := by
  have hq13 : q.val / 32 < 2 := by omega
  obtain ⟨⟨h14, h12⟩, h13, h10, h9, h4, h3, h0⟩ := disp_digits hq13 (Nat.mod_lt _ (by decide)) hstore reg.isLt hy
    (Nat.mod_lt _ (by decide)) (encDisp_toNat hop hstore hy reg q)
  have hreg : (fieldReg (encDisp op reg q)).toFin = reg := Fin.ext ((fieldReg_toNat _).trans h4)
  have hq : (fieldQ (encDisp op reg q)).toFin = q :=
    Fin.ext ((fieldQ_toNat _).trans (by rw [h13, h10, h0, disp_join]))
  have hfixed : Pattern.hits ⟨k, 0xD208, op, 1⟩ (encDisp op reg q) = true := by
    rw [hits_disp_iff, h14, h12, h9, h3, hop]
    ring
  rw [decodeOne_of_hits rest hp rfl hfixed, hextract, hreg, hq, fieldPtr_eq, h3, hptr]

/-- Settles O5, format by format: the encoded word is in its row, and its fields are the operands. -/
theorem decodeOfEncodeGivesTheInstructionBack : Obligations.DecodeOfEncodeGivesTheInstructionBack := by
  intro i rest hi
  cases i with
  | ret => exact (fixedAndSingleRegisterWordsDecode 0x9508 rest).1 rfl
  | cli => exact (fixedAndSingleRegisterWordsDecode 0x94F8 rest).2.1 rfl
  | push r => exact decodeOne_encReg1 (k := .push) (by decide) (by decide) (fun _ => rfl) r rest
  | pop d => exact decodeOne_encReg1 (k := .pop) (by decide) (by decide) (fun _ => rfl) d rest
  | jmp t =>
    exact decodeOne_encAbs (k := .jmp) (by decide) (by decide) (fun _ _ => rfl) ((targetOk_iff t).1 hi) rest
  | call t =>
    exact decodeOne_encAbs (k := .call) (by decide) (by decide) (fun _ _ => rfl) ((targetOk_iff t).1 hi) rest
  | add d r => exact decodeOne_encRR (k := .add) (by decide) (by decide) (fun _ => rfl) d r rest
  | adc d r => exact decodeOne_encRR (k := .adc) (by decide) (by decide) (fun _ => rfl) d r rest
  | eor d r => exact decodeOne_encRR (k := .eor) (by decide) (by decide) (fun _ => rfl) d r rest
  | ldi d k => exact decodeOne_encImm (of_decide_eq_true hi) k rest
  | inp d a => exact decodeOne_encIo (k := .inp) (by decide) (by decide) (fun _ => rfl) d a rest
  | out a r =>
    exact decodeOne_encIo (k := .out) (build := fun r a => .out a r) (by decide) (by decide) (fun _ => rfl) r a rest
  | rjmp x => exact decodeOne_encRel (k := .rjmp) (by decide) (by decide) (fun _ => rfl) hi rest
  | rcall x => exact decodeOne_encRel (k := .rcall) (by decide) (by decide) (fun _ => rfl) hi rest
  | ldd d ptr q =>
    cases ptr with
    | Z => exact decodeOne_encDisp (store := 0) (y := 0) (by decide) rfl (by decide) (by decide) rfl extract_ldd d q rest
    | Y => exact decodeOne_encDisp (store := 0) (y := 1) (by decide) rfl (by decide) (by decide) rfl extract_ldd d q rest
  | std ptr q r =>
    cases ptr with
    | Z =>
      exact decodeOne_encDisp (store := 1) (y := 0) (build := fun r ptr q => .std ptr q r) (by decide) rfl (by decide)
        (by decide) rfl extract_std r q rest
    | Y =>
      exact decodeOne_encDisp (store := 1) (y := 1) (build := fun r ptr q => .std ptr q r) (by decide) rfl (by decide)
        (by decide) rfl extract_std r q rest
  | terminator => cases hi

end Sys2Proof
end

section
/-! PROOF. Encoding what a decode gave (spec/30_encoding.md R63, spec/10_state.md R22). -/

namespace Sys2Proof

/-! The fields of a word of a format's row encode to that word. -/

theorem encReg1_fields {k : Kind} {op w : Word} {n : Nat} (h : Pattern.hits ⟨k, 0xFE0F, op, n⟩ w = true) :
    encReg1 op (fieldReg w).toFin = w := by
  have hop := (hits_reg1_iff ..).1 h
  apply BitVec.eq_of_toNat_eq
  rw [encReg1_toNat (by omega), BitVec.val_toFin, fieldReg_toNat]
  omega

theorem encRR_fields {k : Kind} {op w : Word} {n : Nat} (h : Pattern.hits ⟨k, 0xFC00, op, n⟩ w = true) :
    encRR op (fieldReg w).toFin (fieldRr w).toFin = w := by
  have hop := (hits_rr_iff ..).1 h
  apply BitVec.eq_of_toNat_eq
  rw [encRR_toNat (by omega), BitVec.val_toFin, BitVec.val_toFin, fieldReg_toNat, fieldRr_toNat]
  omega

theorem encIo_fields {k : Kind} {op w : Word} {n : Nat} (h : Pattern.hits ⟨k, 0xF800, op, n⟩ w = true) :
    encIo op (fieldReg w).toFin (fieldIo w).toFin = w := by
  have hop := (hits_io_iff ..).1 h
  apply BitVec.eq_of_toNat_eq
  rw [encIo_toNat (by omega), BitVec.val_toFin, BitVec.val_toFin, fieldReg_toNat, fieldIo_toNat]
  omega

theorem encImm_fields {k : Kind} {w : Word} {n : Nat} (h : Pattern.hits ⟨k, 0xF000, 0xE000, n⟩ w = true) :
    encImm (fieldUpperReg w).toFin (fieldImm w) = w := by
  have hop : w.toNat / 4096 * 4096 = 0xE000 := (hits_nibble_iff ..).1 h
  apply BitVec.eq_of_toNat_eq
  rw [encImm_toNat, BitVec.val_toFin, fieldUpperReg_toNat, fieldImm_toNat]
  omega

theorem encAbs_fields {k : Kind} {op w : Word} {n : Nat} (h : Pattern.hits ⟨k, 0xFE0E, op, n⟩ w = true) (w1 : Word) :
    encAbs op (targetOf (fieldAbs w w1)) = [w, w1] := by
  have hop := (hits_abs_iff ..).1 h
  have hw1 := w1.isLt
  have htarget : (targetOf (fieldAbs w w1)).toNat =
      2 * (w.toNat / 16 % 32 * 131072 + w.toNat % 2 * 65536 + w1.toNat) := by
    rw [targetOf_toNat, fieldAbs_toNat]
  have hfirst : encAbsFirst op (targetOf (fieldAbs w w1)) = w := by
    apply BitVec.eq_of_toNat_eq
    rw [encAbsFirst_toNat (by omega), htarget]
    omega
  have hsecond : BitVec.ofNat 16 ((targetOf (fieldAbs w w1)).toNat / 2) = w1 := by
    apply BitVec.eq_of_toNat_eq
    rw [BitVec.toNat_ofNat, htarget]
    omega
  rw [encAbs_eq, hfirst, hsecond]

theorem encRel_fields {k : Kind} {op w : Word} {n : Nat} (h : Pattern.hits ⟨k, 0xF000, op, n⟩ w = true) :
    encRel op (dispOf (fieldRel w)) = w := by
  have hop := (hits_nibble_iff ..).1 h
  apply BitVec.eq_of_toNat_eq
  rw [encRel_toNat (by omega), dispOf_eq, fieldRel_toNat]
  split <;> omega

theorem digit_split (w a b : Nat) : b * (w / (a * b)) + w / a % b = w / a := by
  rw [← Nat.div_div_eq_div_mul, Nat.div_add_mod]

/-- A word is the sum of the fields that format DISP cuts it into. -/
theorem disp_split (w : Nat) :
    16384 * (w / 16384) + 8192 * (w / 8192 % 2) + 4096 * (w / 4096 % 2) + 1024 * (w / 1024 % 4) +
      512 * (w / 512 % 2) + 16 * (w / 16 % 32) + 8 * (w / 8 % 2) + w % 8 = w := by
  have h3 : 8 * (w / 8) + w % 8 = w := Nat.div_add_mod w 8
  have h4 : 2 * (w / 16) + w / 8 % 2 = w / 8 := digit_split w 8 2
  have h9 : 32 * (w / 512) + w / 16 % 32 = w / 16 := digit_split w 16 32
  have h10 : 2 * (w / 1024) + w / 512 % 2 = w / 512 := digit_split w 512 2
  have h12 : 4 * (w / 4096) + w / 1024 % 4 = w / 1024 := digit_split w 1024 4
  have h13 : 2 * (w / 8192) + w / 4096 % 2 = w / 4096 := digit_split w 4096 2
  have h14 : 2 * (w / 16384) + w / 8192 % 2 = w / 8192 := digit_split w 8192 2
  linarith

/-- The fixed bits of format DISP are the digits of its sum. -/
theorem disp_fixed_digits {a b c d store y : Nat} (hb : b < 2) (hc : c < 2) (hd : d < 2) (hstore : store < 2)
    (hy : y < 2) (h : a * 16384 + b * 4096 + c * 512 + d * 8 = 0x8000 + 512 * store + 8 * y) :
    a = 2 ∧ b = 0 ∧ c = store ∧ d = y := by
  omega

theorem encDisp_fields {k : Kind} {op w : Word} {n store y : Nat}
    (h : Pattern.hits ⟨k, 0xD208, op, n⟩ w = true) (hop : op.toNat = 0x8000 + 512 * store + 8 * y)
    (hstore : store < 2) (hy : y < 2) :
    encDisp op (fieldReg w).toFin (fieldQ w).toFin = w ∧ fieldPtr w = if y = 1 then .Y else .Z := by
  obtain ⟨h14, h12, h9, h3⟩ := disp_fixed_digits (Nat.mod_lt _ (by decide)) (Nat.mod_lt _ (by decide))
    (Nat.mod_lt _ (by decide)) hstore hy (((hits_disp_iff ..).1 h).trans hop)
  refine ⟨?_, by rw [fieldPtr_eq, h3]⟩
  have hq0 : (fieldQ w).toNat % 8 = w.toNat % 8 := by rw [fieldQ_toNat]; omega
  have hq10 : (fieldQ w).toNat / 8 % 4 = w.toNat / 1024 % 4 := by rw [fieldQ_toNat]; omega
  have hq13 : (fieldQ w).toNat / 32 = w.toNat / 8192 % 2 := by rw [fieldQ_toNat]; omega
  have hsum := disp_split w.toNat
  rw [h14, h12, h9, h3] at hsum
  apply BitVec.eq_of_toNat_eq
  rw [encDisp_toNat hop hstore hy, BitVec.val_toFin, BitVec.val_toFin, fieldReg_toNat, hq0, hq10, hq13]
  linarith

/-! What a decode that answers an instruction has read. -/

/-- A decode that answers an instruction matched a row, and had as many words as the row is long. -/
theorem decodeOne_decoded_cases {img : List Word} {off n : Nat} {i : Instr} (h : decodeOne img off = .decoded i n) :
    ∃ p w, p ∈ patterns ∧ p.hits w = true ∧
      ((p.words = 1 ∧ (img.drop off).take 1 = [w] ∧ extract ⟨p.kind, 1, [w]⟩ = .decoded i n) ∨
        ∃ w1, p.words = 2 ∧ (img.drop off).take 2 = [w, w1] ∧ extract ⟨p.kind, 2, [w, w1]⟩ = .decoded i n) := by
  rw [decodeOne_drop] at h
  cases hrest : img.drop off with
  | nil => simp [hrest] at h
  | cons w rest =>
    rw [hrest] at h
    cases hm : matchWord w with
    | none =>
      rw [decodeOne_of_no_row rest hm] at h
      split at h <;> cases h
    | some p =>
      obtain ⟨hp, hhits⟩ := mem_of_matchWord hm
      refine ⟨p, w, hp, hhits, ?_⟩
      have hwords := words_of_mem_patterns p hp
      split at hwords
      · cases rest with
        | nil => simp [decodeOne, nextWord, hm, hwords] at h
        | cons w1 rest =>
          rw [decodeOne_of_two_words w1 rest hm hwords] at h
          exact .inr ⟨w1, hwords, rfl, h⟩
      · rw [decodeOne_of_one_word rest hm (by omega)] at h
        exact .inl ⟨hwords, rfl, h⟩

/-- The upper register of format IMM is R16 or above (R22). -/
theorem wellFormed_ldi_fields (w : Word) (k : Byte) : (Instr.ldi (fieldUpperReg w).toFin k).wellFormed = true := by
  simp [Instr.wellFormed, fieldUpperReg_toNat]

theorem targetOk_targetOf (k : BitVec 22) : targetOk (targetOf k) = true :=
  (targetOk_iff _).2 (by rw [targetOf_toNat]; omega)

theorem dispOk_dispOf (k : BitVec 12) : dispOk (dispOf k) = true := by
  have hk := k.isLt
  rw [dispOk_iff, dispOf_eq]
  split <;> omega

/-- Every bit of the FIXED rows is fixed. -/
theorem eq_of_hits_fixed {k : Kind} {value w : Word} {n : Nat} (h : Pattern.hits ⟨k, 0xFFFF, value, n⟩ w = true) :
    w = value := by
  have hall : w &&& BitVec.allOnes 16 = value := (Pattern.hits_iff _ _).1 h
  rwa [BitVec.and_allOnes] at hall

/-- A word of a one-word row: the Field Decoder gives a well-formed instruction that encodes to it. -/
theorem extract_one_word {p : Pattern} {w : Word} (hp : p ∈ patterns) (h : p.hits w = true) (hwords : p.words = 1) :
    ∃ i, extract ⟨p.kind, 1, [w]⟩ = .decoded i 1 ∧ i.wellFormed = true ∧ encode i = [w] := by
  simp only [patterns, List.mem_cons, List.not_mem_nil, or_false] at hp
  obtain rfl | rfl | rfl | rfl | rfl | rfl | rfl | rfl | rfl | rfl | rfl | rfl | rfl | rfl | rfl | rfl | rfl | rfl := hp
  case _ | _ =>
    obtain rfl := eq_of_hits_fixed h
    exact ⟨_, rfl, rfl, rfl⟩
  case _ | _ => exact ⟨_, rfl, rfl, congrArg ([·]) (encReg1_fields h)⟩
  case _ | _ => cases hwords
  case _ | _ | _ => exact ⟨_, rfl, rfl, congrArg ([·]) (encRR_fields h)⟩
  case _ => exact ⟨_, rfl, wellFormed_ldi_fields w _, congrArg ([·]) (encImm_fields h)⟩
  case _ | _ => exact ⟨_, rfl, rfl, congrArg ([·]) (encIo_fields h)⟩
  case _ | _ => exact ⟨_, rfl, dispOk_dispOf _, congrArg ([·]) (encRel_fields h)⟩
  case _ =>
    obtain ⟨hw, hptr⟩ := encDisp_fields (store := 0) (y := 0) h rfl (by decide) (by decide)
    exact ⟨_, extract_ldd w, rfl, by rw [hptr]; exact congrArg ([·]) hw⟩
  case _ =>
    obtain ⟨hw, hptr⟩ := encDisp_fields (store := 0) (y := 1) h rfl (by decide) (by decide)
    exact ⟨_, extract_ldd w, rfl, by rw [hptr]; exact congrArg ([·]) hw⟩
  case _ =>
    obtain ⟨hw, hptr⟩ := encDisp_fields (store := 1) (y := 0) h rfl (by decide) (by decide)
    exact ⟨_, extract_std w, rfl, by rw [hptr]; exact congrArg ([·]) hw⟩
  case _ =>
    obtain ⟨hw, hptr⟩ := encDisp_fields (store := 1) (y := 1) h rfl (by decide) (by decide)
    exact ⟨_, extract_std w, rfl, by rw [hptr]; exact congrArg ([·]) hw⟩

theorem two_word_rows : ∀ p ∈ patterns, p.words = 2 →
    p = ⟨.jmp, 0xFE0E, 0x940C, 2⟩ ∨ p = ⟨.call, 0xFE0E, 0x940E, 2⟩ := by
  decide

/-- The same for a two-word row, JMP or CALL, and any second word. -/
theorem extract_two_words {p : Pattern} {w : Word} (hp : p ∈ patterns) (h : p.hits w = true) (hwords : p.words = 2)
    (w1 : Word) :
    ∃ i, extract ⟨p.kind, 2, [w, w1]⟩ = .decoded i 2 ∧ i.wellFormed = true ∧ encode i = [w, w1] := by
  obtain rfl | rfl := two_word_rows p hp hwords
  · exact ⟨_, rfl, targetOk_targetOf _, encAbs_fields h w1⟩
  · exact ⟨_, rfl, targetOk_targetOf _, encAbs_fields h w1⟩

/-- The encoding of every instruction has its width in words. -/
theorem encode_length (i : Instr) : (encode i).length = i.width := by
  cases i with
  | ldd d ptr q => exact Laws.EncodedWidth.ldd d ptr q
  | std ptr q r => exact Laws.EncodedWidth.std ptr q r
  | ret | cli | push | pop | jmp | call | add | adc | eor | ldi | inp | out | rjmp | rcall | terminator => rfl

/-- Settles O6: the row that the decode matched gives an instruction whose encoding is the words consumed. -/
theorem encodeOfDecodeGivesTheWordsBack : Obligations.EncodeOfDecodeGivesTheWordsBack := by
  intro img off i n h
  obtain ⟨p, w, hp, hhits, ⟨hwords, htake, hi⟩ | ⟨w1, hwords, htake, hi⟩⟩ := decodeOne_decoded_cases h
  · obtain ⟨j, hj, hwf, hencode⟩ := extract_one_word hp hhits hwords
    cases hj.symm.trans hi
    exact ⟨hwf, by rw [← encode_length, hencode]; rfl, hencode.trans htake.symm⟩
  · obtain ⟨j, hj, hwf, hencode⟩ := extract_two_words hp hhits hwords w1
    cases hj.symm.trans hi
    exact ⟨hwf, by rw [← encode_length, hencode]; rfl, hencode.trans htake.symm⟩

end Sys2Proof
end

section
/-! PROOF. The load (spec/40_pipeline.md R83, R84): its loop, its offsets, and the Program Memory it gives. -/

namespace Sys2Proof

/-! One turn of the loop. -/

/-- A budget of one more decode than words are left changes nothing, and leaves room for a turn. -/
theorem loadFrom_eq_loadLoop_succ (img : List Word) (off : Nat) :
    loadFrom img off = loadLoop (img.length - off + 1) img off :=
  (loadLoop_succ le_rfl).symm

theorem loadFrom_of_decoded {img : List Word} {off n : Nat} {i : Instr} (h : decodeOne img off = .decoded i n) :
    loadFrom img off = (loadFrom img (off + n)).cons i off := by
  have hpos := decodeOne_width_pos h
  rw [loadFrom_eq_loadLoop_succ, loadLoop, h, ← loadLoop_of_enough (fuel := img.length - off) (by omega)]

theorem loadFrom_of_endOfStream {img : List Word} {off : Nat} (h : decodeOne img off = .endOfStream) :
    loadFrom img off = .loaded [] [] := by
  rw [loadFrom_eq_loadLoop_succ, loadLoop, h]

theorem loadFrom_of_failure {img : List Word} {off : Nat} {f : DecodeFailure} (h : decodeOne img off = .failure f) :
    loadFrom img off = .loadFault f := by
  rw [loadFrom_eq_loadLoop_succ, loadLoop, h]

/-- Settles O20: one turn of the loop, in each of a decode's three outcomes. -/
theorem loadFollowsItsLoop : Obligations.LoadFollowsItsLoop :=
  fun _ _ => ⟨fun _ _ => loadFrom_of_decoded, loadFrom_of_endOfStream, fun _ => loadFrom_of_failure⟩

/-- The turns of a completed load: from `off` on, each instruction is decoded at its offset, and the next one starts
a width further. -/
inductive Loads (img : List Word) : Nat → List Instr → List Nat → Prop where
  | nil (off : Nat) : Loads img off [] []
  | cons {off : Nat} {i : Instr} {instrs : List Instr} {offsets : List Nat}
      (hd : decodeOne img off = .decoded i i.width) (hrest : Loads img (off + i.width) instrs offsets) :
      Loads img off (i :: instrs) (off :: offsets)

theorem loads_of_loadLoop {img : List Word} {fuel off : Nat} {instrs : List Instr} {offsets : List Nat}
    (h : loadLoop fuel img off = .loaded instrs offsets) : Loads img off instrs offsets := by
  induction fuel generalizing off instrs offsets with
  | zero =>
    cases h
    exact .nil off
  | succ fuel ih =>
    rw [loadLoop] at h
    cases hd : decodeOne img off with
    | endOfStream =>
      simp only [hd] at h
      cases h
      exact .nil off
    | failure f =>
      simp only [hd] at h
      cases h
    | decoded i n =>
      obtain ⟨-, rfl, -⟩ := encodeOfDecodeGivesTheWordsBack img off i n hd
      simp only [hd] at h
      cases hl : loadLoop fuel img (off + i.width) with
      | loadFault f =>
        rw [hl] at h
        cases h
      | loaded instrs' offsets' =>
        rw [hl] at h
        cases h
        exact .cons hd (ih hl)

theorem loads_of_load {img : List Word} {instrs : List Instr} {offsets : List Nat}
    (h : load img = .loaded instrs offsets) : Loads img 0 instrs offsets :=
  loads_of_loadLoop h

/-! The flash index table. -/

theorem Loads.offsets_eq {img : List Word} {off : Nat} {instrs : List Instr} {offsets : List Nat}
    (h : Loads img off instrs offsets) : offsets = Machine.offsetsFrom off instrs := by
  induction h with
  | nil => rfl
  | cons _ _ ih => exact congrArg (_ :: ·) ih

theorem length_offsetsFrom (off : Nat) (instrs : List Instr) :
    (Machine.offsetsFrom off instrs).length = instrs.length := by
  induction instrs generalizing off with
  | nil => rfl
  | cons i instrs ih => exact congrArg (· + 1) (ih _)

/-- Settles O21: the loop puts each offset with its instruction and goes on a width further. -/
theorem loadOffsetsAdvanceByWidths : Obligations.LoadOffsetsAdvanceByWidths := by
  intro img instrs offsets h
  have hoffsets := (loads_of_load h).offsets_eq
  exact ⟨hoffsets, hoffsets ▸ length_offsetsFrom 0 instrs⟩

/-- Each offset of a completed load from `off` starts an instruction at or after `off`. -/
theorem Loads.le_offset {img : List Word} {off : Nat} {instrs : List Instr} {offsets : List Nat}
    (h : Loads img off instrs offsets) {o : Nat} (ho : o ∈ offsets) : off ≤ o := by
  induction h with
  | nil => cases ho
  | cons _ _ ih =>
    obtain rfl | ho := List.mem_cons.1 ho
    · exact le_rfl
    · exact Nat.le_of_add_right_le (ih ho)

/-- Two instructions of a load do not overlap: the one that starts later starts behind the other's words. -/
theorem Loads.offsets_apart {img : List Word} {off : Nat} {instrs : List Instr} {offsets : List Nat}
    (h : Loads img off instrs offsets) {o o' n : Nat} {i : Instr} (ho : o ∈ offsets) (ho' : o' ∈ offsets)
    (hi : decodeOne img o = .decoded i n) : o' ≤ o ∨ o + n ≤ o' := by
  induction h with
  | nil => cases ho
  | cons hd hrest ih =>
    obtain rfl | hmem := List.mem_cons.1 ho
    · obtain rfl | hmem' := List.mem_cons.1 ho'
      · exact .inl le_rfl
      · cases hd.symm.trans hi
        exact .inr (hrest.le_offset hmem')
    · obtain rfl | hmem' := List.mem_cons.1 ho'
      · exact .inl (Nat.le_of_add_right_le (hrest.le_offset hmem))
      · exact ih hmem hmem'

/-! An encoded sequence. -/

/-- Behind any words that stand before it, an encoded sequence loads back, when what follows it ends the stream. -/
theorem loadFrom_encoded {tail : List Word} (htail : decodeOne tail 0 = .endOfStream) (prog : List Instr)
    (hprog : ∀ i ∈ prog, i.wellFormed = true) (front : List Word) :
    loadFrom (front ++ (prog.flatMap encode ++ tail)) front.length =
      .loaded prog (Machine.offsetsFrom front.length prog) := by
  induction prog generalizing front with
  | nil =>
    apply loadFrom_of_endOfStream
    rw [decodeOne_drop]
    simpa using htail
  | cons i prog ih =>
    obtain ⟨hi, hrest⟩ := List.forall_mem_cons.1 hprog
    have hd : decodeOne (front ++ ((i :: prog).flatMap encode ++ tail)) front.length = .decoded i i.width := by
      rw [decodeOne_drop, List.drop_left, List.flatMap_cons, List.append_assoc]
      exact decodeOfEncodeGivesTheInstructionBack i _ hi
    have hnext := ih hrest (front ++ encode i)
    rw [List.length_append, encode_length] at hnext
    rw [loadFrom_of_decoded hd]
    simp only [List.flatMap_cons, List.append_assoc] at hnext ⊢
    rw [hnext]
    rfl

/-- Settles O22: the end of the image and a terminator word both end the stream after the sequence. -/
theorem encodedSequenceLoadsBack : Obligations.EncodedSequenceLoadsBack := by
  intro prog after hprog
  refine ⟨?_, loadFrom_encoded (decodeOne_zero after) prog hprog []⟩
  have h := loadFrom_encoded (decodeOne_nil 0) prog hprog []
  rwa [List.append_nil] at h

/-! A load that faults. -/

/-- A decode fails on a word that no row matches, and on nothing else: the Field Decoder never fails. -/
theorem decodeOne_failure {img : List Word} {off : Nat} {f : DecodeFailure} (h : decodeOne img off = .failure f) :
    ∃ w, img[off]? = some w ∧ w ≠ 0 ∧ (∀ p ∈ patterns, p.hits w = false) ∧ f = .unmatched w := by
  rw [decodeOne_drop] at h
  cases hrest : img.drop off with
  | nil => simp [hrest] at h
  | cons w rest =>
    have hw : img[off]? = some w := by
      rw [← List.head?_drop, hrest]
      rfl
    rw [hrest] at h
    cases hm : matchWord w with
    | none =>
      rw [decodeOne_of_no_row rest hm] at h
      split at h
      · cases h
      · cases h
        exact ⟨w, hw, ‹_›, (matchWord_none_iff w).1 hm, rfl⟩
    | some p =>
      obtain ⟨hp, hhits⟩ := mem_of_matchWord hm
      have hwords := words_of_mem_patterns p hp
      cases rest with
      | nil =>
        split at hwords
        · simp [decodeOne, nextWord, hm, hwords] at h
        · rw [decodeOne_of_one_word [] hm (by omega)] at h
          obtain ⟨i, hi, -⟩ := extract_one_word hp hhits hwords
          cases hi.symm.trans h
      | cons w1 rest =>
        obtain ⟨i, hi, -⟩ := decodeOne_decodes w1 rest hm
        cases hi.symm.trans h

theorem loadLoop_fault {img : List Word} {fuel off : Nat} {f : DecodeFailure}
    (h : loadLoop fuel img off = .loadFault f) : ∃ o, decodeOne img o = .failure f := by
  induction fuel generalizing off with
  | zero => cases h
  | succ fuel ih =>
    rw [loadLoop] at h
    cases hd : decodeOne img off with
    | endOfStream => simp [hd] at h
    | failure g =>
      simp only [hd, LoadOutcome.loadFault.injEq] at h
      exact ⟨off, h ▸ hd⟩
    | decoded i n =>
      simp only [hd] at h
      cases hl : loadLoop fuel img (off + n) with
      | loaded instrs offsets =>
        rw [hl] at h
        cases h
      | loadFault g =>
        rw [hl] at h
        cases h
        exact ih hl

/-- Settles O25: the load's fault is the failure of one decode. -/
theorem loadFaultRecordsAnUnmatchedWordOfTheImage : Obligations.LoadFaultRecordsAnUnmatchedWordOfTheImage := by
  intro img f h
  obtain ⟨off, hfailure⟩ := loadLoop_fault h
  obtain ⟨w, hw⟩ := decodeOne_failure hfailure
  exact ⟨off, w, hw⟩

namespace Machine

/-! Program Memory. -/

theorem ProgramMemory.lookup_cons (k : Nat) (j : Instr) (p : ProgramMemory) (a : Nat) :
    ProgramMemory.lookup ((k, j) :: p) a = if k = a then some (j, j.width) else p.lookup a := rfl

theorem ProgramMemory.ofLoad_cons (i : Instr) (instrs : List Instr) (off : Nat) (offsets : List Nat) :
    ProgramMemory.ofLoad (i :: instrs) (off :: offsets) = (2 * off, i) :: ProgramMemory.ofLoad instrs offsets := rfl

/-- Program Memory of a load: the entries are the decoded instructions at twice their offsets (R84). -/
theorem lookup_ofLoad_iff {img : List Word} {off : Nat} {instrs : List Instr} {offsets : List Nat}
    (h : Loads img off instrs offsets) (a : Nat) (i : Instr) (n : Nat) :
    (ProgramMemory.ofLoad instrs offsets).lookup a = some (i, n) ↔
      ∃ o ∈ offsets, a = 2 * o ∧ decodeOne img o = .decoded i n := by
  induction h with
  | nil => simp [ProgramMemory.ofLoad, ProgramMemory.lookup]
  | @cons off j _ _ hd _ ih =>
    rw [ProgramMemory.ofLoad_cons, ProgramMemory.lookup_cons]
    split
    next ha =>
      constructor
      · rintro ⟨⟩
        exact ⟨off, List.mem_cons_self, ha.symm, hd⟩
      · rintro ⟨o, -, ho, hi⟩
        obtain rfl : o = off := by omega
        cases hd.symm.trans hi
        rfl
    next ha =>
      rw [ih]
      constructor
      · rintro ⟨o, hmem, ho⟩
        exact ⟨o, List.mem_cons_of_mem _ hmem, ho⟩
      · rintro ⟨o, hmem, ho, hi⟩
        obtain rfl | hmem := List.mem_cons.1 hmem
        · exact absurd ho.symm ha
        · exact ⟨o, hmem, ho, hi⟩

/-- Settles O23, by induction over the turns of the load. -/
theorem programMemoryHoldsExactlyTheInstructionStarts : Obligations.ProgramMemoryHoldsExactlyTheInstructionStarts :=
  fun _ _ _ h => lookup_ofLoad_iff (loads_of_load h)

/-- Settles O24: an entry at a second word would be an instruction that starts inside another, and every key is
twice an offset. -/
theorem secondWordsAndOddAddressesHaveNoEntry : Obligations.SecondWordsAndOddAddressesHaveNoEntry := by
  intro img instrs offsets h
  have hload := loads_of_load h
  have hentry := lookup_ofLoad_iff hload
  refine ⟨fun a i ha => ?_, fun a hodd => ?_⟩
  · obtain ⟨o, ho, rfl, hi⟩ := (hentry a i 2).1 ha
    refine Option.eq_none_iff_forall_ne_some.2 fun ⟨j, m⟩ hj => ?_
    obtain ⟨o', ho', hkey, -⟩ := (hentry _ j m).1 hj
    have := hload.offsets_apart ho ho' hi
    omega
  · refine Option.eq_none_iff_forall_ne_some.2 fun ⟨j, m⟩ hj => ?_
    obtain ⟨o, -, rfl, -⟩ := (hentry a j m).1 hj
    omega

/-- Settles O28: the entry at `pc` is the instruction that one decode gives there. -/
theorem stepRunsTheInstructionDecodedFromTheImage : Obligations.StepRunsTheInstructionDecodedFromTheImage := by
  intro img instrs offsets s off i n hload hpm hoff hpc hi
  apply step_of_hit (n := n)
  rw [fetch, hpm]
  exact (lookup_ofLoad_iff (loads_of_load hload) _ i n).2 ⟨off, hoff, hpc, hi⟩

/-! The bring-up. -/

theorem ProgramMemory.risingFrom_cons (lo k : Nat) (i : Instr) (p : ProgramMemory) :
    ProgramMemory.risingFrom lo ((k, i) :: p) = true ↔
      lo ≤ k ∧ k % 2 = 0 ∧ k < 2 ^ 23 ∧ i.wellFormed = true ∧ ProgramMemory.risingFrom (k + 1) p = true := by
  simp [ProgramMemory.risingFrom, and_assoc]

theorem lt_length_of_decoded {img : List Word} {off n : Nat} {i : Instr} (h : decodeOne img off = .decoded i n) :
    off < img.length := by
  by_contra hle
  cases (decodeOne_of_length_le (Nat.le_of_not_lt hle)).symm.trans h

/-- The keys rise because the offsets do, and fit the program counter because the image does (R4). -/
theorem risingFrom_ofLoad {img : List Word} {off : Nat} {instrs : List Instr} {offsets : List Nat}
    (h : Loads img off instrs offsets) (himg : img.length ≤ 2 ^ 22) {lo : Nat} (hlo : lo ≤ 2 * off) :
    ProgramMemory.risingFrom lo (ProgramMemory.ofLoad instrs offsets) = true := by
  induction h generalizing lo with
  | nil => rfl
  | cons hd _ ih =>
    have hlt := lt_length_of_decoded hd
    have hpos := decodeOne_width_pos hd
    rw [ProgramMemory.ofLoad_cons, ProgramMemory.risingFrom_cons]
    exact ⟨hlo, by omega, by omega, (encodeOfDecodeGivesTheWordsBack _ _ _ _ hd).1, ih (by omega)⟩

end Machine

end Sys2Proof
end

section
/-! PROOF. The constructed state and the bring-up (spec/10_state.md R27, spec/70_reset_and_hazards.md R180), and the
placing of one opcode-table word. -/

namespace Sys2Proof.Machine

/-! The constructed state. -/

@[simp] theorem State.constructed_reg (size : Nat) (k : RegIdx) : (State.constructed size).reg k = 0 := by
  simp [State.reg, State.constructed]

@[simp] theorem State.constructed_flag (size : Nat) (f : FlagName) : (State.constructed size).flag f = false := by
  cases f <;> rfl

@[simp] theorem State.constructed_byteAt (size : Nat) (sp : Space) (a : Nat) :
    (State.constructed size).byteAt sp a = 0 := by
  cases sp <;> rfl

/-- The constructed state is legal under any canonical Program Memory: its data spaces list nothing. -/
theorem State.constructed_inv {size : Nat} (hpos : 1 ≤ size) (hmax : size ≤ Config.dmemSizeMax) {p : ProgramMemory}
    (hp : p.wf = true) : State.Inv { State.constructed size with pm := p } where
  aliasWf := rfl
  aliasBelow := rfl
  ioWf := rfl
  ioBelow := rfl
  extioWf := rfl
  extioBelow := rfl
  dataWf := rfl
  dataBelow := rfl
  dmemPos := hpos
  dmemMax := hmax
  pcEven := rfl
  pmWf := hp

/-- Settles O1, from the constructed state. -/
theorem resetHoldsTheConstructedValues : Obligations.ResetHoldsTheConstructedValues :=
  ⟨rfl, rfl, State.constructed_reg _, State.constructed_flag _, State.constructed_byteAt _, rfl, rfl⟩

/-- Settles O2: the reset state is the constructed one, with the empty Program Memory. -/
theorem resetMeetsTheInvariant : Obligations.ResetMeetsTheInvariant :=
  State.constructed_inv (p := []) (by decide) (by decide) rfl

/-! The bring-up. -/

/-- The invariant says nothing of SP. -/
theorem State.Inv.setSp {s : State} (h : s.Inv) (v : BitVec 16) : (s.setSp v).Inv :=
  { h with }

theorem bringUp_of_loadFault {img : List Word} {size : Nat} {d : DecodeFailure} (spInit : BitVec 16) (hpos : 1 ≤ size)
    (hmax : size ≤ Config.dmemSizeMax) (himg : img.length ≤ Config.imgLenMax) (h : load img = .loadFault d) :
    bringUp img size spInit = .fault (.decodeFailure d) := by
  rw [bringUp, if_neg (by omega), if_neg (by omega), h]
  rfl

theorem bringUp_of_loaded {img : List Word} {size : Nat} {instrs : List Instr} {offsets : List Nat}
    (spInit : BitVec 16) (hpos : 1 ≤ size) (hmax : size ≤ Config.dmemSizeMax) (himg : img.length ≤ Config.imgLenMax)
    (h : load img = .loaded instrs offsets) :
    bringUp img size spInit =
      .next ({ State.constructed size with pm := ProgramMemory.ofLoad instrs offsets }.setSp spInit) := by
  rw [bringUp, if_neg (by omega), if_neg (by omega), h]

/-- A bring-up completes with arguments in range and a completed load only, in the constructed state. -/
theorem bringUp_next {img : List Word} {size : Nat} {spInit : BitVec 16} {s : State}
    (h : bringUp img size spInit = .next s) :
    1 ≤ size ∧ size ≤ Config.dmemSizeMax ∧ img.length ≤ Config.imgLenMax ∧
      ∃ instrs offsets, load img = .loaded instrs offsets ∧
        s = { State.constructed size with pm := ProgramMemory.ofLoad instrs offsets }.setSp spInit := by
  unfold bringUp at h
  split at h
  next => cases h
  next hsize =>
    split at h
    next => cases h
    next himg =>
      split at h
      next => cases h
      next instrs offsets hload =>
        cases h
        exact ⟨by omega, by omega, by omega, instrs, offsets, hload, rfl⟩

/-- Settles O4: the constructed state with the load's Program Memory, and SP written after. -/
theorem bringUpMeetsTheInvariant : Obligations.BringUpMeetsTheInvariant := by
  intro img size spInit s h
  obtain ⟨hpos, hmax, himg, instrs, offsets, hload, rfl⟩ := bringUp_next h
  have hpm : (ProgramMemory.ofLoad instrs offsets).wf = true :=
    risingFrom_ofLoad (loads_of_load hload) himg (Nat.zero_le _)
  exact ⟨(State.constructed_inv hpos hmax hpm).setSp spInit, rfl, State.sp_setSp _ _, rfl,
    State.constructed_reg size, State.constructed_flag size, State.constructed_byteAt size⟩

/-- Settles O26: with the arguments in range the outcome is the load's. -/
theorem bringUpFaultsExactlyOnALoadFault : Obligations.BringUpFaultsExactlyOnALoadFault := by
  intro img size spInit hpos hmax himg
  cases hload : load img with
  | loadFault d =>
    rw [bringUp_of_loadFault spInit hpos hmax himg hload]
    simp [eq_comm]
  | loaded instrs offsets =>
    rw [bringUp_of_loaded spInit hpos hmax himg hload]
    simp

/-! The placing of one opcode-table word. -/

theorem State.withFetchWord_of_terminator {s : State} {nbits w : Nat}
    (h : decodeTableWord nbits w = some .terminator) :
    s.withFetchWord nbits w = { s with pm := s.pm.erase s.pc.toNat } := by
  simp [State.withFetchWord, h]

theorem State.withFetchWord_of_instr {s : State} {nbits w : Nat} {i : Instr} (h : decodeTableWord nbits w = some i)
    (hi : i ≠ .terminator) : s.withFetchWord nbits w = { s with pm := s.pm.insert s.pc.toNat i } := by
  unfold State.withFetchWord
  rw [h]
  split
  next hnone => cases hnone
  next hterminator => exact absurd (Option.some.inj hterminator) hi
  next j _ hj => rw [Option.some.inj hj]

/-- Settles O29: the terminator word leaves no entry at `pc`, and any other instruction is the entry there. -/
theorem placedTableWordIsRunNext : Obligations.PlacedTableWordIsRunNext := by
  intro s nbits w i h
  by_cases hi : i = .terminator
  · subst hi
    rw [State.withFetchWord_of_terminator h, terminatorRowRaisesUnmappedPc]
    exact step_of_miss (ProgramMemory.lookup_erase_self s.pm _)
  · rw [State.withFetchWord_of_instr h hi]
    exact step_of_hit (ProgramMemory.lookup_insert_self _ _ i)

end Sys2Proof.Machine
end

section
/-! PROOF. The data spaces, the stack pointer and the render: laws of the operations themselves (spec/20_memory.md R42,
spec/10_state.md R15, spec/30_encoding.md R61). -/

namespace Sys2Proof.Machine

/-! What an update leaves as it was. -/

theorem State.flag_congr {s t : State} (h : t.flags = s.flags) (f : FlagName) : t.flag f = s.flag f := by
  cases f <;> simp [State.flag, h]

theorem SameRegisters.of_regs {s t : State} (h : t.regs = s.regs) : SameRegisters s t := State.reg_congr s t h

theorem SameFlags.of_flags {s t : State} (h : t.flags = s.flags) : SameFlags s t := State.flag_congr h

theorem SameMemory.of_space {s t : State} (h : ∀ sp, t.space sp = s.space sp) : SameMemory s t :=
  fun sp a => congrArg (Memory.read · a) (h sp)

/-! The memory primitives. -/

/-- A read answers exactly inside the space. -/
theorem memRead_of_lt {sp : Space} {a : Nat} {s : State} (h : a < s.spaceSize sp) :
    memRead sp a s = .ok (s.byteAt sp a) := by
  rw [memRead, if_neg (by omega)]

theorem memRead_of_le {sp : Space} {a : Nat} {s : State} (h : s.spaceSize sp ≤ a) :
    memRead sp a s = .error (.dataAddress a) := by
  rw [memRead, if_pos h]

/-- Bytes after a write to one canonical space: that byte holds the value, every other is as before. -/
theorem State.byteAt_setSpace_write {s : State} {sp : Space} (h : (s.space sp).wf = true) (addr : Nat) (v : Byte)
    (sp' : Space) (a : Nat) :
    (s.setSpace sp ((s.space sp).write addr v)).byteAt sp' a =
      if sp' = sp ∧ a = addr then v else s.byteAt sp' a := by
  rw [State.byteAt, State.space_setSpace]
  by_cases hsp : sp = sp'
  · subst hsp
    rw [if_pos rfl, Memory.read_write h]
    simp [eq_comm, State.byteAt]
  · rw [if_neg hsp, if_neg (fun hand => hsp hand.1.symm), State.byteAt]

/-- A read looks at one byte of a space whose size no write changes. -/
theorem memRead_congr {sp : Space} {a : Nat} {s t : State} (hsize : t.spaceSize sp = s.spaceSize sp)
    (hbyte : t.byteAt sp a = s.byteAt sp a) : memRead sp a t = memRead sp a s := by
  rw [memRead, memRead, hsize, hbyte]

/-- Settles O45: outside the space by the bounds check, inside it by the bytes after a write. -/
theorem memoryPrimitivesReadBackAndAliasNothing : Obligations.MemoryPrimitivesReadBackAndAliasNothing := by
  intro sp addr v s hwf
  refine ⟨fun hout => ⟨memRead_of_le hout, (memWrite_error_iff ..).2 ⟨hout, rfl⟩⟩, fun hin => ?_⟩
  have hbyte := State.byteAt_setSpace_write hwf addr v
  refine ⟨_, (memWrite_ok_iff ..).2 ⟨hin, rfl⟩, ?_, fun sp' a hother => ?_, .of_regs (by simp), .of_flags (by simp),
    by simp [SameStackPointer], by simp [SameArguments], by simp⟩
  · rw [memRead_of_lt (by simpa using hin), hbyte, if_pos ⟨rfl, rfl⟩]
  · exact memRead_congr (by simp) (by rw [hbyte, if_neg hother])

/-! Canonical spaces. -/

/-- A space reads as unlisted below its first address, so where a byte is listed the other space has begun. -/
theorem Memory.head_le_of_read_eq {k k' lo' : Nat} {b b' : Byte} {m m' : Memory} (hb : b ≠ unlistedByte)
    (h' : Memory.risingFrom lo' ((k', b') :: m') = true)
    (hread : Memory.read ((k, b) :: m) k = Memory.read ((k', b') :: m') k) : k' ≤ k := by
  by_contra hlt
  have hrising : Memory.risingFrom k' ((k', b') :: m') = true :=
    (Memory.risingFrom_cons ..).2 ⟨le_rfl, ((Memory.risingFrom_cons ..).1 h').2⟩
  rw [Memory.read_of_lt hrising (Nat.lt_of_not_le hlt), Memory.read_cons, if_pos rfl] at hread
  exact hb hread

/-- The first cells agree in address and byte, and behind them the spaces still read the same. -/
theorem Memory.eq_of_read_eq {lo lo' : Nat} {m m' : Memory} (h : Memory.risingFrom lo m = true)
    (h' : Memory.risingFrom lo' m' = true) (hread : ∀ a, m.read a = m'.read a) : m = m' := by
  induction m generalizing lo lo' m' with
  | nil =>
    cases m' with
    | nil => rfl
    | cons c' m' =>
      obtain ⟨k', b'⟩ := c'
      obtain ⟨-, hb', -⟩ := (Memory.risingFrom_cons ..).1 h'
      exact absurd (hread k').symm (by simpa [Memory.read_cons] using hb')
  | cons c m ih =>
    obtain ⟨k, b⟩ := c
    obtain ⟨-, hb, hm⟩ := (Memory.risingFrom_cons ..).1 h
    cases m' with
    | nil => exact absurd (hread k) (by simpa [Memory.read_cons] using hb)
    | cons c' m' =>
      obtain ⟨k', b'⟩ := c'
      obtain ⟨-, hb', hm'⟩ := (Memory.risingFrom_cons ..).1 h'
      obtain rfl : k = k' :=
        le_antisymm (Memory.head_le_of_read_eq hb' h (hread k').symm) (Memory.head_le_of_read_eq hb h' (hread k))
      have hbyte : b = b' := by simpa [Memory.read_cons] using hread k
      have htail : ∀ a, Memory.read m a = Memory.read m' a := by
        intro a
        by_cases ha : k = a
        · rw [Memory.read_of_lt hm (by omega), Memory.read_of_lt hm' (by omega)]
        · simpa [Memory.read_cons, ha] using hread a
      rw [hbyte, ih hm hm' htail]

/-- Settles O46: the canonical form is rising from 0. -/
theorem canonicalSpacesWithEqualBytesAreEqual : Obligations.CanonicalSpacesWithEqualBytesAreEqual :=
  fun _ _ h h' hread => Memory.eq_of_read_eq h h' hread

/-! The stack pointer. -/

/-- Settles O47: both halves are written from the one 16-bit difference, whose low half borrows exactly at 0. -/
theorem stackPointerMovesAsOneQuantity : Obligations.StackPointerMovesAsOneQuantity := by
  intro s
  have hsp := s.sp_toNat
  have hdec : s.decSp.sp.toNat = (s.sp.toNat + 65535) % 65536 := by
    rw [State.sp_decSp, BitVec.toNat_sub]
    simp
    omega
  have hinc : s.incSp.sp.toNat = (s.sp.toNat + 1) % 65536 := by
    rw [State.sp_incSp, BitVec.toNat_add]
    rfl
  have hhalves := s.decSp.sp_toNat
  have hlow := s.decSp.spl.isLt
  have hlow' := s.spl.isLt
  refine ⟨hdec, hinc, fun hzero => ?_, fun hpos => ?_⟩
  · have hspl : s.spl.toNat = 0 := by rw [hzero]; rfl
    constructor
    · apply BitVec.eq_of_toNat_eq
      rw [BitVec.toNat_sub]
      simp
      omega
    · apply BitVec.eq_of_toNat_eq
      simp
      omega
  · have hspl : s.spl.toNat ≠ 0 := fun h => hpos (BitVec.eq_of_toNat_eq h)
    constructor
    · apply BitVec.eq_of_toNat_eq
      omega
    · apply BitVec.eq_of_toNat_eq
      rw [BitVec.toNat_sub]
      simp
      omega

/-! The render. -/

/-- The instruction that a render names: by the mnemonic and the sorts of its operands. -/
def unrender (r : Rendered) : Instr :=
  match r.mnemonic, r.operands with
  | "RET", [] => .ret
  | "CLI", [] => .cli
  | "PUSH", [.reg r] => .push r
  | "POP", [.reg d] => .pop d
  | "JMP", [.target t] => .jmp t
  | "CALL", [.target t] => .call t
  | "ADD", [.reg d, .reg r] => .add d r
  | "ADC", [.reg d, .reg r] => .adc d r
  | "EOR", [.reg d, .reg r] => .eor d r
  | "LDI", [.reg d, .imm k] => .ldi d k
  | "IN", [.reg d, .ioAddr a] => .inp d a
  | "OUT", [.ioAddr a, .reg r] => .out a r
  | "RJMP", [.rel x] => .rjmp x
  | "RCALL", [.rel x] => .rcall x
  | "LDD", [.reg d, .indexed p q] => .ldd d p q
  | "STD", [.indexed p q, .reg r] => .std p q r
  | _, _ => .terminator

theorem unrender_render (i : Instr) : unrender (render i) = i := by
  cases i <;> rfl

/-- Settles O48: kind by kind by definition, and render is one-to-one because it has a left inverse. -/
theorem renderDeterminesTheInstruction : Obligations.RenderDeterminesTheInstruction :=
  ⟨fun _ _ _ _ _ _ _ _ =>
      ⟨rfl, rfl, rfl, rfl, rfl, rfl, rfl, rfl, rfl, rfl, rfl, rfl, rfl, rfl, rfl, rfl, rfl⟩,
    fun _ _ h => Function.LeftInverse.injective unrender_render h⟩

end Sys2Proof.Machine
end

section
/-! PROOF. The executed instructions (spec/41_alu_register.md to spec/43_control_transfer.md): what each does, with
its frame. -/

namespace Sys2Proof.Machine

/-! Fields and accessors after a CALL and an advance. -/

@[simp] theorem calledState_dmemSize (target : Pc) (s : State) : (calledState target s).dmemSize = s.dmemSize := rfl

@[simp] theorem State.sp_setPc (s : State) (p : Pc) : (s.setPc p).sp = s.sp := rfl

@[simp] theorem calledState_sp (target : Pc) (s : State) : (calledState target s).sp = s.sp - 2 := by
  rw [calledState, State.sp_setPc, State.sp_setSp, BitVec.sub_sub]
  rfl

theorem calledState_dataWf {s : State} (h : s.data.wf = true) (target : Pc) : (calledState target s).data.wf = true :=
  Memory.wf_write (Memory.wf_write h _ _) _ _

theorem State.reg_advance (s : State) (w : Nat) (k : RegIdx) : (s.advance w).reg k = s.reg k := rfl

/-- `pc` advances by two bytes a word and wraps at its 23 bits (R17). -/
theorem State.pcAfter_toNat (s : State) (w : Nat) : (s.pcAfter w).toNat = (s.pc.toNat + 2 * w) % 2 ^ 23 := by
  rw [State.pcAfter, BitVec.toNat_add, BitVec.toNat_ofNat, Nat.add_mod_mod]
  rfl

/-! The meaning of each kind as a next state. -/

theorem exec_eor (d r : RegIdx) (s : State) :
    exec (.eor d r) s = .next ((s.setReg d (s.reg d ^^^ s.reg r)).advance 1) := rfl

theorem exec_ldi (d : RegIdx) (k : Byte) (s : State) : exec (.ldi d k) s = .next ((s.setReg d k).advance 1) := rfl

theorem exec_out (a : IoAddr) (r : RegIdx) (s : State) : exec (.out a r) s = .next (outState a r s) := execOut_eq a r s

theorem exec_jmp (target : Pc) (s : State) : exec (.jmp target) s = .next (s.setPc target) := rfl

/-- CALL completes where both stack addresses are inside DATA. -/
theorem exec_call {s : State} (h : s.sp.toNat < s.dmemSize) (h' : (s.sp - 1).toNat < s.dmemSize) (target : Pc) :
    exec (.call target) s = .next (calledState target s) :=
  (execCall_next_iff ..).2 ⟨h, h', rfl⟩

/-! Registers, immediates and jumps. -/

/-- Writing a register and advancing `pc` changes nothing else. -/
theorem setReg_advance_frame (s : State) (d : RegIdx) (v : Byte) :
    (∀ k, k ≠ d → ((s.setReg d v).advance 1).reg k = s.reg k) ∧
      ((s.setReg d v).advance 1).pc.toNat = (s.pc.toNat + 2) % 2 ^ 23 ∧
      SameFlags s ((s.setReg d v).advance 1) ∧ SameStackPointer s ((s.setReg d v).advance 1) ∧
      SameMemory s ((s.setReg d v).advance 1) ∧ SameArguments s ((s.setReg d v).advance 1) := by
  refine ⟨fun k hk => ?_, ?_, .of_flags rfl, ⟨rfl, rfl⟩, .of_space (by simp), ⟨rfl, rfl⟩⟩
  · rw [State.reg_advance, State.reg_setReg, if_neg (Ne.symm hk)]
  · exact State.pcAfter_toNat (s.setReg d v) 1

/-- Settles O31, from the register write and its frame. -/
theorem eorWritesExclusiveOrAndNothingElse : Obligations.EorWritesExclusiveOrAndNothingElse := by
  intro d r s
  have hvalue : ((s.setReg d (s.reg d ^^^ s.reg r)).advance 1).reg d = s.reg d ^^^ s.reg r := State.reg_setReg_self ..
  refine ⟨_, exec_eor d r s, hvalue, fun hdr => ?_, setReg_advance_frame s d _⟩
  subst hdr
  rw [hvalue, BitVec.xor_self]
  rfl

/-- Settles O32, from the register write and its frame. -/
theorem ldiWritesTheImmediateAndNothingElse : Obligations.LdiWritesTheImmediateAndNothingElse := by
  intro d k s
  exact ⟨_, exec_ldi d k s, State.reg_setReg_self s d k, setReg_advance_frame s d k⟩

/-- Settles O33, from the bytes after an OUT. -/
theorem outWritesOneIoByteAndNothingElse : Obligations.OutWritesOneIoByteAndNothingElse := by
  intro a r s hio
  have hbyte := outState_byteAt hio a r
  exact ⟨_, exec_out a r s, (hbyte ..).trans (if_pos ⟨rfl, rfl⟩), rfl, fun sp x hx => (hbyte sp x).trans (if_neg hx),
    State.pcAfter_toNat s 1, .of_regs rfl, .of_flags rfl, ⟨rfl, rfl⟩, ⟨rfl, rfl⟩⟩

/-- Settles O34: `pc` is the one field a JMP writes. -/
theorem jmpSetsThePcAndNothingElse : Obligations.JmpSetsThePcAndNothingElse := by
  intro target s
  exact ⟨_, exec_jmp target s, rfl, .of_regs rfl, .of_flags rfl, ⟨rfl, rfl⟩, .of_space (by simp), ⟨rfl, rfl⟩⟩

/-! CALL. -/

/-- The two bytes of the return address as numbers (R121). -/
theorem returnAddress_bytes (s : State) :
    (returnAddress s).extractLsb 7 0 = BitVec.ofNat 8 ((s.pc.toNat + 4) % 2 ^ 23) ∧
      (returnAddress s).extractLsb 15 8 = BitVec.ofNat 8 ((s.pc.toNat + 4) % 2 ^ 23 / 256) := by
  have hpc : (returnAddress s).toNat = (s.pc.toNat + 4) % 2 ^ 23 % 2 ^ 16 := by
    rw [← State.pcAfter_toNat s 2]
    simp [returnAddress]
  constructor
  · apply BitVec.eq_of_toNat_eq
    rw [toNat_slice, hpc]
    simp
  · apply BitVec.eq_of_toNat_eq
    rw [toNat_slice, hpc]
    simp
    omega

/-- The two stack addresses of a CALL are different, also where the lower one wraps. -/
theorem State.sp_sub_one_ne (s : State) : (s.sp - 1).toNat ≠ s.sp.toNat := by
  have := s.sp.isLt
  rw [BitVec.toNat_sub]
  simp
  omega

/-- Settles O35, from the bytes after a CALL. -/
theorem callPushesTheReturnAddressAndJumps : Obligations.CallPushesTheReturnAddressAndJumps := by
  intro target s hdata hlow hhigh
  have hbyte := calledState_byteAt hdata target
  obtain ⟨hlowByte, hhighByte⟩ := returnAddress_bytes s
  refine ⟨_, exec_call hlow hhigh target, rfl, ?_, ?_, fun sp x hx => ?_, calledState_sp target s, rfl, .of_regs rfl,
    .of_flags rfl, ⟨rfl, rfl⟩⟩
  · rw [hbyte, if_neg (fun h => s.sp_sub_one_ne h.2.symm), if_pos ⟨rfl, rfl⟩, hlowByte]
  · rw [hbyte, if_pos ⟨rfl, rfl⟩, hhighByte]
  · rw [hbyte, if_neg (fun h => hx ⟨h.1, .inr h.2⟩), if_neg (fun h => hx ⟨h.1, .inl h.2⟩)]

/-- Settles O36, from the exact conditions of a CALL's fault and of its next state. -/
theorem callRaisesDataAddressExactlyOutsideDataMemory : Obligations.CallRaisesDataAddressExactlyOutsideDataMemory := by
  intro target s
  refine ⟨fun h => ?_, fun h h' => ?_, fun h h' => ⟨_, exec_call h h' target⟩⟩
  · exact (execCall_fault_iff ..).2 (.inl ⟨h, rfl⟩)
  · exact (execCall_fault_iff ..).2 (.inr ⟨h, h', rfl⟩)

end Sys2Proof.Machine
end

section
/-! PROOF. The whole machine (spec/10_state.md R11, R14; spec/20_memory.md R30, R34; spec/60_exceptions.md R159): what
any instruction can write, reads and raises, and the invariant of every step. -/

namespace Sys2Proof.Machine

/-! What any instruction can write. -/

/-- Settles O41: LDI reaches R16 and above in a well-formed Program Memory, and OUT, JMP and CALL write no register. -/
theorem lowRegistersChangeOnlyByEor : Obligations.LowRegistersChangeOnlyByEor := by
  intro s t k hpm hstep hk hchanged
  obtain ⟨i, n, hfetch, hexec⟩ := step_next_iff.1 hstep
  obtain ⟨-, -, -, hi⟩ := ProgramMemory.lookup_of_risingFrom hpm hfetch
  obtain ⟨d, r, rfl, rfl⟩ | ⟨d, v, rfl, rfl⟩ | ⟨a, r, -, rfl⟩ | ⟨target, -, rfl⟩ | ⟨target, -, -, -, rfl⟩ :=
    exec_next_cases hexec
  · by_cases hkd : k = d
    · subst hkd
      exact ⟨r, n, hfetch, State.reg_setReg_self ..⟩
    · exact absurd ((setReg_advance_frame s d _).1 k hkd) hchanged
  · have hd : 16 ≤ d.val := of_decide_eq_true hi
    have hkd : k ≠ d := Fin.ne_of_val_ne (by omega)
    exact absurd ((setReg_advance_frame s d v).1 k hkd) hchanged
  · exact absurd rfl hchanged
  · exact absurd rfl hchanged
  · exact absurd rfl hchanged

/-- Settles O42, along the five kinds that complete. -/
theorem stackPointerMovesOnlyByCall : Obligations.StackPointerMovesOnlyByCall := by
  intro i s t h
  obtain ⟨d, r, rfl, rfl⟩ | ⟨d, k, rfl, rfl⟩ | ⟨a, r, rfl, rfl⟩ | ⟨target, rfl, rfl⟩ | ⟨target, rfl, -, -, rfl⟩ :=
    exec_next_cases h
  · exact .inl ⟨⟨rfl, rfl⟩, nofun⟩
  · exact .inl ⟨⟨rfl, rfl⟩, nofun⟩
  · exact .inl ⟨⟨rfl, rfl⟩, nofun⟩
  · exact .inl ⟨⟨rfl, rfl⟩, nofun⟩
  · exact .inr ⟨target, rfl, calledState_sp target s⟩

/-- Settles O43, along the five kinds that complete. -/
theorem eachDataSpaceIsReachedByItsOwnKind : Obligations.EachDataSpaceIsReachedByItsOwnKind := by
  intro i s t h
  obtain ⟨d, r, rfl, rfl⟩ | ⟨d, k, rfl, rfl⟩ | ⟨a, r, rfl, rfl⟩ | ⟨target, rfl, rfl⟩ | ⟨target, rfl, -, -, rfl⟩ :=
    exec_next_cases h
  · exact ⟨rfl, rfl, fun h => absurd rfl h, fun h => absurd rfl h⟩
  · exact ⟨rfl, rfl, fun h => absurd rfl h, fun h => absurd rfl h⟩
  · exact ⟨rfl, rfl, fun _ => ⟨a, r, rfl⟩, fun h => absurd rfl h⟩
  · exact ⟨rfl, rfl, fun h => absurd rfl h, fun h => absurd rfl h⟩
  · exact ⟨rfl, rfl, fun h => absurd rfl h, fun _ => ⟨target, rfl⟩⟩

/-! No instruction reads a data space. -/

/-- The byte an instruction stores at an address it stores to: the register of OUT, and the return address's bytes of
CALL. It looks at registers, SP and `pc` only. -/
def storedByte (i : Instr) (s : State) (a : Nat) : Byte :=
  match i with
  | .out _ r => s.reg r
  | .call _ => if a = (s.sp - 1).toNat then (returnAddress s).extractLsb 15 8 else (returnAddress s).extractLsb 7 0
  | _ => unlistedByte

/-- Every byte after an instruction that completes. -/
theorem exec_byteAt {i : Instr} {s t : State} (h : exec i s = .next t) (hio : s.io.wf = true)
    (hdata : s.data.wf = true) (sp : Space) (a : Nat) :
    (StoresTo i s sp a → t.byteAt sp a = storedByte i s a) ∧ (¬ StoresTo i s sp a → t.byteAt sp a = s.byteAt sp a) := by
  obtain ⟨d, r, rfl, rfl⟩ | ⟨d, k, rfl, rfl⟩ | ⟨port, r, rfl, rfl⟩ | ⟨target, rfl, rfl⟩ | ⟨target, rfl, -, -, rfl⟩ :=
    exec_next_cases h
  · exact ⟨False.elim, fun _ => SameMemory.of_space (by simp) sp a⟩
  · exact ⟨False.elim, fun _ => SameMemory.of_space (by simp) sp a⟩
  · have hbyte := outState_byteAt hio port r sp a
    exact ⟨fun hs => hbyte.trans (if_pos hs), fun hs => hbyte.trans (if_neg hs)⟩
  · exact ⟨False.elim, fun _ => SameMemory.of_space (by simp) sp a⟩
  · have hbyte := calledState_byteAt hdata target sp a
    refine ⟨fun ⟨hsp, hs⟩ => ?_, fun hs => ?_⟩
    · rw [hbyte, storedByte]
      by_cases ha : a = (s.sp - 1).toNat
      · rw [if_pos ⟨hsp, ha⟩, if_pos ha]
      · rw [if_neg (fun h => ha h.2), if_pos ⟨hsp, hs.resolve_right ha⟩, if_neg ha]
    · rw [hbyte, if_neg (fun h => hs ⟨h.1, .inr h.2⟩), if_neg (fun h => hs ⟨h.1, .inl h.2⟩)]

/-- A state with its four data spaces replaced. -/
def State.withSpaces (s : State) (m1 m2 m3 m4 : Memory) : State :=
  { s with aliasSpace := m1, io := m2, extio := m3, data := m4 }

/-- An instruction that completes does so over any data spaces, with the same fields outside them. -/
theorem exec_withSpaces_of_next {i : Instr} {s t : State} (h : exec i s = .next t) (m1 m2 m3 m4 : Memory) :
    ∃ t', exec i (s.withSpaces m1 m2 m3 m4) = .next t' ∧ t'.regs = t.regs ∧ t'.flags = t.flags ∧ t'.sph = t.sph ∧
      t'.spl = t.spl ∧ t'.pc = t.pc ∧ t'.pm = t.pm ∧ t'.dmemSize = t.dmemSize := by
  obtain ⟨d, r, rfl, rfl⟩ | ⟨d, k, rfl, rfl⟩ | ⟨a, r, rfl, rfl⟩ | ⟨target, rfl, rfl⟩ | ⟨target, rfl, hlow, hhigh, rfl⟩ :=
    exec_next_cases h
  · exact ⟨_, exec_eor .., rfl, rfl, rfl, rfl, rfl, rfl, rfl⟩
  · exact ⟨_, exec_ldi .., rfl, rfl, rfl, rfl, rfl, rfl, rfl⟩
  · exact ⟨_, exec_out .., rfl, rfl, rfl, rfl, rfl, rfl, rfl⟩
  · exact ⟨_, exec_jmp .., rfl, rfl, rfl, rfl, rfl, rfl, rfl⟩
  · exact ⟨_, exec_call (s := s.withSpaces m1 m2 m3 m4) hlow hhigh target, rfl, rfl, rfl, rfl, rfl, rfl, rfl⟩

/-- A fault's conditions look at no data space. -/
theorem exec_withSpaces_of_fault {i : Instr} {s : State} {f : Fault} (h : exec i s = .fault f)
    (m1 m2 m3 m4 : Memory) : exec i (s.withSpaces m1 m2 m3 m4) = .fault f :=
  (exec_fault_iff i _ f).2 ((exec_fault_iff i s f).1 h)

/-- Settles O44: both runs store `storedByte`, which sees no data space, where the instruction stores. -/
theorem dataSpacesAreNeverRead : Obligations.DataSpacesAreNeverRead := by
  intro i s m1 m2 m3 m4 u
  refine ⟨fun t h => ?_, fun f h => exec_withSpaces_of_fault h m1 m2 m3 m4⟩
  obtain ⟨t', h', hregs, hflags, hsph, hspl, hpc, hpm, hsize⟩ := exec_withSpaces_of_next h m1 m2 m3 m4
  refine ⟨t', h', hregs, hflags, hsph, hspl, hpc, hpm, hsize, fun hio hdata hio' hdata' sp a => ?_⟩
  obtain ⟨hstored, -⟩ := exec_byteAt h hio hdata sp a
  obtain ⟨hstored', hkept'⟩ := exec_byteAt h' hio' hdata' sp a
  have hsame : StoresTo i u sp a ↔ StoresTo i s sp a := by cases i <;> rfl
  have hvalue : storedByte i u a = storedByte i s a := by cases i <;> rfl
  exact ⟨fun hs => (hstored' (hsame.2 hs)).trans (hvalue.trans (hstored hs).symm), fun hs => hkept' (mt hsame.1 hs)⟩

/-! The outcomes of a step. -/

theorem exec_not_refused (i : Instr) (s : State) (r : Refusal) : exec i s ≠ .refused r := by
  cases i with
  | call target => exact execCall_not_refused target s r
  | out a r => rw [exec_out]; nofun
  | ret | cli | push | pop | jmp | add | adc | eor | ldi | inp | rjmp | rcall | ldd | std | terminator => nofun

theorem step_not_refused (s : State) (r : Refusal) : step s ≠ .refused r := by
  cases hf : fetch s with
  | none => rw [step_of_miss hf]; nofun
  | some e => rw [step_of_hit hf]; exact exec_not_refused _ _ _

/-- An instruction that completes is of an executed kind. -/
theorem executes_of_exec_next {i : Instr} {s t : State} (h : exec i s = .next t) : i.executes = true := by
  obtain ⟨d, r, rfl, -⟩ | ⟨d, k, rfl, -⟩ | ⟨a, r, rfl, -⟩ | ⟨target, rfl, -⟩ | ⟨target, rfl, -⟩ := exec_next_cases h
  all_goals rfl

/-- Settles O30, by the outcome of the instruction that the step looked up. -/
theorem stepOutcomesAreTheSpecs : Obligations.StepOutcomesAreTheSpecs := by
  intro s
  cases hfetch : fetch s with
  | none => exact .inr (.inl ⟨step_of_miss hfetch, fun i n h => nomatch hfetch.symm.trans h⟩)
  | some e =>
    obtain ⟨i, n⟩ := e
    have hstep : step s = exec i s := step_of_hit hfetch
    cases hexec : exec i s with
    | next t => exact .inl ⟨t, i, n, hstep.trans hexec, hfetch, executes_of_exec_next hexec⟩
    | refused r => exact absurd hexec (exec_not_refused i s r)
    | fault f =>
      rw [hexec] at hstep
      obtain ⟨rfl, rfl⟩ | ⟨hi, -, rfl⟩ | ⟨target, rfl, ⟨hout, rfl⟩ | ⟨-, hout, rfl⟩⟩ := (exec_fault_iff i s f).1 hexec
      · refine .inr (.inl ⟨hstep, fun j m hj => ?_⟩)
        cases hfetch.symm.trans hj
        rfl
      · exact .inr (.inr (.inl ⟨i, n, hfetch, hi, hstep⟩))
      · exact .inr (.inr (.inr ⟨target, n, _, hfetch, hout, .inl rfl, hstep⟩))
      · exact .inr (.inr (.inr ⟨target, n, _, hfetch, hout, .inr rfl, hstep⟩))

/-! The invariant. -/

theorem State.Inv.setReg {s : State} (h : s.Inv) (d : RegIdx) (v : Byte) : (s.setReg d v).Inv :=
  { h with }

theorem State.Inv.setPc {s : State} (h : s.Inv) {p : Pc} (hp : p.toNat % 2 = 0) : (s.setPc p).Inv :=
  { h with pcEven := hp }

/-- `pc` moves by whole words, and its range holds an even number of bytes (R17, R18). -/
theorem State.Inv.advance {s : State} (h : s.Inv) (w : Nat) : (s.advance w).Inv := by
  have heven := h.pcEven
  exact h.setPc (by rw [State.pcAfter_toNat]; omega)

/-- A write inside a space keeps it canonical and inside its size. -/
theorem State.Inv.write {s : State} (h : s.Inv) {sp : Space} {a : Nat} (ha : a < s.spaceSize sp) (v : Byte) :
    (s.setSpace sp ((s.space sp).write a v)).Inv := by
  cases sp with
  | regAlias =>
    exact { h with aliasWf := Memory.wf_write h.aliasWf a v, aliasBelow := Memory.below_write v h.aliasBelow ha }
  | io => exact { h with ioWf := Memory.wf_write h.ioWf a v, ioBelow := Memory.below_write v h.ioBelow ha }
  | extio => exact { h with extioWf := Memory.wf_write h.extioWf a v, extioBelow := Memory.below_write v h.extioBelow ha }
  | data => exact { h with dataWf := Memory.wf_write h.dataWf a v, dataBelow := Memory.below_write v h.dataBelow ha }

theorem State.Inv.outState {s : State} (h : s.Inv) (a : IoAddr) (r : RegIdx) : (outState a r s).Inv :=
  (h.write (sp := .io) a.isLt (s.reg r)).advance 1

theorem State.Inv.calledState {s : State} (h : s.Inv) (hlow : s.sp.toNat < s.dmemSize)
    (hhigh : (s.sp - 1).toNat < s.dmemSize) {target : Pc} (ht : target.toNat % 2 = 0) : (calledState target s).Inv :=
  (((h.write (sp := .data) hlow _).write (sp := .data) hhigh _).setSp _).setPc ht

/-- An instruction that Program Memory can hold keeps the invariant: it writes inside the spaces, and goes on at an
even address. -/
theorem exec_keeps_inv {i : Instr} {s t : State} (hs : s.Inv) (hi : i.wellFormed = true) (h : exec i s = .next t) :
    t.Inv := by
  obtain ⟨d, r, rfl, rfl⟩ | ⟨d, k, rfl, rfl⟩ | ⟨a, r, rfl, rfl⟩ | ⟨target, rfl, rfl⟩ | ⟨target, rfl, hlow, hhigh, rfl⟩ :=
    exec_next_cases h
  · exact (hs.setReg d _).advance 1
  · exact (hs.setReg d k).advance 1
  · exact hs.outState a r
  · exact hs.setPc ((targetOk_iff target).1 hi)
  · exact hs.calledState hlow hhigh ((targetOk_iff target).1 hi)

/-- Settles O3: the instruction a step finds is well-formed, since Program Memory is. -/
theorem stepKeepsTheInvariant : Obligations.StepKeepsTheInvariant := by
  intro s t hs hstep
  obtain ⟨i, n, hfetch, hexec⟩ := step_next_iff.1 hstep
  obtain ⟨-, -, -, hi⟩ := ProgramMemory.lookup_of_risingFrom hs.pmWf hfetch
  exact exec_keeps_inv hs hi hexec

end Sys2Proof.Machine
end

section
/-! PROOF. Runs (spec/40_pipeline.md R88, spec/70_reset_and_hazards.md R181, R185, R189): how one ends, where one never
ends, and how deep CALLs can nest. -/

namespace Sys2Proof.Machine

/-! The end of a run. -/

theorem core_run_succ_of_next {s t : State} (h : step s = .next t) (k : Nat) :
    Host.Core.run core (k + 1) s = Host.Core.run core k t := by
  have hcore : core.step s = .next t := h
  simp [Host.Core.run, hcore]

theorem core_run_succ_of_fault {s : State} {f : Fault} (h : step s = .fault f) (k : Nat) :
    Host.Core.run core (k + 1) s = .fault f := by
  have hcore : core.step s = .fault f := h
  simp [Host.Core.run, hcore]

/-- Settles O50, by induction on the budget: the first step goes on, or its fault ends the run, and no step refuses. -/
theorem runEndsByFatalConditionOrHostStop : Obligations.RunEndsByFatalConditionOrHostStop := by
  intro k s
  induction k generalizing s with
  | zero => exact .inl ⟨rfl, rfl⟩
  | succ k ih =>
    cases hs : step s with
    | next t =>
      rw [report_succ_of_next hs, core_run_succ_of_next hs]
      exact ih t
    | fault f =>
      rw [report_succ_of_fault hs, core_run_succ_of_fault hs]
      exact .inr ⟨f, rfl, hs, rfl⟩
    | refused r => exact absurd hs (step_not_refused s r)

/-- Settles O51: a JMP to `pc` gives back the state it ran in. -/
theorem jumpToItselfNeverEnds : Obligations.JumpToItselfNeverEnds := by
  intro s n k hfetch
  have hstep : step s = .next s := step_of_hit hfetch
  induction k with
  | zero => rfl
  | succ k ih => rw [report_succ_of_next hstep, ih]

/-! Going on where nothing is loaded. -/

/-- A state that goes on at an address without an entry, under the same Program Memory, stops there. -/
theorem step_of_unmapped {s t : State} {p : Pc} (hpm : t.pm = s.pm) (hpc : t.pc = p)
    (h : s.pm.lookup p.toNat = none) : step t = .fault (.unmappedPC p) := by
  subst hpc
  exact step_of_miss (by rw [fetch, hpm, h])

/-- The kinds that fall through complete, two bytes further. -/
theorem exec_falls_through {i : Instr} (s : State)
    (hi : (∃ d r, i = .eor d r) ∨ (∃ d k, i = .ldi d k) ∨ ∃ a r, i = .out a r) :
    ∃ t, exec i s = .next t ∧ t.pc = s.pc + 2 := by
  obtain ⟨d, r, rfl⟩ | ⟨d, k, rfl⟩ | ⟨a, r, rfl⟩ := hi
  · exact ⟨_, exec_eor d r s, rfl⟩
  · exact ⟨_, exec_ldi d k s, rfl⟩
  · exact ⟨_, exec_out a r s, rfl⟩

/-- Settles O52: no instruction changes Program Memory, so the advanced address has no entry after the step either. -/
theorem fallingThroughTheLastInstructionIsFatal : Obligations.FallingThroughTheLastInstructionIsFatal := by
  intro s i n hfetch hi hnone
  obtain ⟨t, hexec, hpc⟩ := exec_falls_through s hi
  have hnext : (s.pc + 2).toNat = (s.pc.toNat + 2) % 2 ^ 23 := BitVec.toNat_add _ _
  exact ⟨t, (step_of_hit hfetch).trans hexec, step_of_unmapped (exec_keeps_pm hexec) hpc (hnext ▸ hnone)⟩

/-- Settles O53: a JMP, and a CALL whose stack is inside DATA, go to their target whatever is there. -/
theorem transferToUnmappedTargetFaultsOneStepLater : Obligations.TransferToUnmappedTargetFaultsOneStepLater := by
  intro s target n hnone
  refine ⟨fun hfetch => ?_, fun hfetch hlow hhigh => ?_⟩
  · exact ⟨_, (step_of_hit hfetch).trans (exec_jmp target s), step_of_unmapped (s := s) rfl rfl hnone⟩
  · exact ⟨_, (step_of_hit hfetch).trans (exec_call hlow hhigh target), step_of_unmapped (s := s) rfl rfl hnone⟩

/-! Nested CALLs. -/

theorem execSeq_cons_of_next {i : Instr} {s t : State} (h : exec i s = .next t) (rest : List Instr) :
    execSeq (i :: rest) s = execSeq rest t := by
  rw [execSeq, h]

theorem State.sp_sub_one_toNat {s : State} (hpos : 1 ≤ s.sp.toNat) : (s.sp - 1).toNat = s.sp.toNat - 1 :=
  BitVec.toNat_sub_of_le hpos

/-- The two pushed bytes of a CALL are the topmost ones of the stack; the rest of DATA is as before. -/
theorem calledState_data_byteAt {s : State} (h : s.data.wf = true) (target : Pc) {a : Nat} (hpos : 1 ≤ s.sp.toNat)
    (ha : s.sp.toNat < a ∨ a + 2 ≤ s.sp.toNat) : (calledState target s).byteAt .data a = s.byteAt .data a := by
  have hlow := State.sp_sub_one_toNat hpos
  have hpush : pushAddress s = s.sp.toNat := rfl
  rw [calledState_byteAt h, if_neg (by omega), if_neg (by omega)]

/-- With room for `targets` below and at SP, the CALLs complete. No room is asked for where none is left to run, as SP
may then have wrapped (D5). -/
theorem execSeq_calls (targets : List Pc) {s : State} (hdata : s.data.wf = true)
    (hroom : targets ≠ [] → 2 * targets.length ≤ s.sp.toNat + 1 ∧ s.sp.toNat < s.dmemSize) :
    ∃ t, execSeq (targets.map .call) s = .next t ∧ t.sp = s.sp - BitVec.ofNat 16 (2 * targets.length) ∧
      (∀ a, (s.sp.toNat < a ∨ a + 2 * targets.length ≤ s.sp.toNat) → t.byteAt .data a = s.byteAt .data a) ∧
      SameRegisters s t ∧ SameFlags s t ∧ SameArguments s t := by
  induction targets generalizing s with
  | nil => exact ⟨s, rfl, by simp, fun _ _ => rfl, .of_regs rfl, .of_flags rfl, ⟨rfl, rfl⟩⟩
  | cons target targets ih =>
    obtain ⟨hlen, hlt⟩ := hroom (List.cons_ne_nil _ _)
    rw [List.length_cons] at hlen ⊢
    have hpos : 1 ≤ s.sp.toNat := by omega
    have hsp := s.sp.isLt
    have hlow : (s.sp - 1).toNat < s.dmemSize := by
      rw [State.sp_sub_one_toNat hpos]
      omega
    have hnext : (calledState target s).sp.toNat = (s.sp.toNat + 65534) % 65536 := by
      rw [calledState_sp, BitVec.toNat_sub, Nat.add_comm]
      rfl
    obtain ⟨t, hseq, hsp', hframe, hregs, hflags, hargs⟩ := ih (calledState_dataWf hdata target) fun hne => by
      have := List.length_pos_of_ne_nil hne
      rw [hnext, calledState_dmemSize]
      omega
    refine ⟨t, (execSeq_cons_of_next (exec_call hlt hlow target) _).trans hseq, ?_, fun a ha => ?_, hregs, hflags, hargs⟩
    · rw [hsp', calledState_sp, BitVec.sub_sub, Nat.mul_succ, Nat.add_comm, BitVec.ofNat_add]
      rfl
    · exact (hframe a (by omega)).trans (calledState_data_byteAt hdata target hpos (by omega))

/-- Settles O54: the CALLs have the room they ask for. -/
theorem nestedCallsStayInsideDataMemory : Obligations.NestedCallsStayInsideDataMemory := by
  intro targets s hdata hlow hhigh
  exact execSeq_calls targets hdata fun _ => ⟨by omega, hhigh⟩

end Sys2Proof.Machine
end
